-- ==== Sys2Proof/Word.lean ====
section
/-! DEFINITION. The words the block handles: the 8-bit byte, the unit of storage and of every access (R12, R29),
and the 64-bit command word (R42). -/

namespace Sys2Proof

/-- A byte is 8 bits (R12), the unit of storage and of every access (R29). -/
abbrev Byte := BitVec 8

/-- Every command is one 64-bit command word, bit 0 least significant (R42, R55). -/
abbrev Word := BitVec 64

end Sys2Proof
end

