-- ==== Sys2Proof/Config.lean ====
section
/-! DEFINITION. The configuration of the block (00_scope.md section 2): the fixed sub-panel size, the tiling with the
proof of its constraints, and the two parameters the spec leaves OPEN and no rule reads. The constants derived from them
(R6) stand in Machine/Geometry.lean. -/

namespace Sys2Proof

/-- The tiling: `dw` sub-panels across and `dh` down, with the constraints of R5 ("A model takes `DW` and `DH` as
arguments, together with the proof of these constraints"). A geometry that breaks them "is not a configuration of this
block" (R101). -/
structure Geometry where
  /-- `DW`, the number of sub-panels across (R5). -/
  dw : Nat
  /-- `DH`, the number of sub-panels down (R5). -/
  dh : Nat
  dw_pos : 0 < dw
  dh_pos : 0 < dh
  /-- `DT ≤ 1023`: every byte address fits 16 bits and every coordinate on the screen 16 signed bits (R5). -/
  dt_le : dw * dh ≤ 1023
  deriving DecidableEq, Repr

/-- One sub-panel, `DW = DH = 1`: the configuration the spec's examples assume. DESIGN CHOICE (log entry 1): the
geometry `State.reset` binds. -/
def Geometry.single : Geometry := ⟨1, 1, by decide, by decide, by decide⟩

/-- `PANEL_W`, the width of a sub-panel in pixels (R4). -/
abbrev Config.panelW : Nat := 32

/-- `PANEL_H`, the height of a sub-panel in pixels (R4). -/
abbrev Config.panelH : Nat := 16

/-- `SCAN_PHASES`, the number of scan phases (R6). -/
abbrev Config.scanPhases : Nat := 4

/-- The two orders in which a byte's bits can go onto the serial wire (R23). -/
inductive WireBitOrder
  | msbFirst
  | lsbFirst
  deriving DecidableEq, Repr, Inhabited

/-- `WIRE_BIT_ORDER`, left open, "which no rule of this spec reads" (R23, D24, U10): a constant with no known value,
read by nothing in this model (log entry 12). -/
opaque Config.wireBitOrder : WireBitOrder

/-- `PANEL_WIRING`, which LED (panel, local column, local row) each bit of the shifted bytes drives: left open, "read by
no rule" (U9, R81, N12). A constant with no known value, read by nothing in this model (log entry 12). -/
opaque Config.panelWiring : Nat → Nat × Nat × Nat

end Sys2Proof
end

