-- ==== Sys2Proof/Machine/Geometry.lean ====
section
/-! DEFINITION. The constants derived from the tiling (R6). -/

namespace Sys2Proof

/-- `DT = DW * DH`, the number of sub-panels (R5). -/
def Geometry.dt (g : Geometry) : Nat := g.dw * g.dh

/-- `BYTES_PER_PANEL_ROW = PANEL_W / 8` (R6). -/
def Config.bytesPerPanelRow : Nat := Config.panelW / 8

/-- `SCREEN_W = PANEL_W * DW` (R6). -/
def Geometry.screenW (g : Geometry) : Nat := Config.panelW * g.dw

/-- `SCREEN_H = PANEL_H * DH` (R6). -/
def Geometry.screenH (g : Geometry) : Nat := Config.panelH * g.dh

/-- `STRIP_ROW_BYTES = DT * BYTES_PER_PANEL_ROW`, the bytes of one row of the framebuffer (R6, R30). -/
def Geometry.stripRowBytes (g : Geometry) : Nat := g.dt * Config.bytesPerPanelRow

/-- `FB_BYTES = DT * BYTES_PER_PANEL_ROW * PANEL_H` (R6). -/
def Geometry.fbBytes (g : Geometry) : Nat := g.dt * Config.bytesPerPanelRow * Config.panelH

/-- `BAND_ROWS = PANEL_H / SCAN_PHASES`: a phase lights one row of each band of 4 rows (R6). -/
def Config.bandRows : Nat := Config.panelH / Config.scanPhases

/-- `BYTES_PER_SCAN = STRIP_ROW_BYTES * BAND_ROWS` (R6). -/
def Geometry.bytesPerScan (g : Geometry) : Nat := g.stripRowBytes * Config.bandRows

end Sys2Proof
end

