-- ==== Sys2Proof/Machine/State.lean ====
section
/-! DEFINITION. The state of the block (10_state.md), the ways a step can stop, and the state after reset (R98). -/

namespace Sys2Proof.Machine

/-- The block has no faults: "The block has no fault outcome" (R10), it "raises no exceptions" (R87). A type without
constructors, so no step can answer one; safe. -/
inductive Fault
  deriving DecidableEq, Repr

/-- The model refusals (R88), "a statement that the spec gives the command word no meaning, not a hardware signal". -/
inductive Refusal
  /-- Raised by `exec` alone, for a command without a meaning in this model; safe. No command is left so. -/
  | notModelled (mnemonic : String)
  /-- Raised by `step` when the presented word matches no row of R52 (R53, R88); records the word. Safe: "errs toward
  unprovable". -/
  | reservedEncoding (word : Word)
  /-- Raised by READ_BYTE and WRITE_BYTE when `addr >= FB_BYTES` (R71, R88); records the address. Safe: "errs toward
  unprovable". -/
  | addressOutOfRange (addr : Nat)
  deriving DecidableEq, Repr

/-- An output event (R23). -/
inductive Event
  /-- `Tx(b)`: `transmitByte(b)`; the byte is shifted into the head of the shift chain. -/
  | tx (b : Byte)
  /-- `OE(e)`: `setOutputEnabled(e)`. -/
  | oe (e : Bool)
  /-- `Latch`: `latchOutput()`; the shift chain's bytes pass to the output stage. -/
  | latch
  /-- `RowSel(g)`: `setRowSelect(g)`. -/
  | rowSel (g : BitVec 2)
  deriving DecidableEq, Repr

/-- What stands at the block's inputs for one command: the word the host presents at the command port (R8, R42) and the
level of `bus_free` while it runs (R75). Log entries 2 and 4. -/
structure PortInput where
  word : Word
  busFree : Bool
  deriving DecidableEq, Repr

/-- A memory: (address, byte) pairs, addresses strictly rising, no pair that holds what an unlisted address reads as.
`Memory.wf` (Machine/Ops.lean) says so. -/
abbrev Memory := List Host.Cell

/-- The state of the block. The first five fields after `geom` are the elements of R16. -/
structure State where
  /-- The configuration `DW`, `DH` (R5), bound at reset and fixed afterwards (R27, R98). No command writes it. Log
  entry 1. -/
  geom : Geometry
  /-- `FB`, the framebuffer: `FB_BYTES` bytes (R19, R28). -/
  fb : Memory
  /-- `phase`, the scan cursor, `0..3` (R18). -/
  phase : BitVec 2
  /-- `row_sel`, the row-select lines: bit 0 is line A, bit 1 is line B (R20). -/
  rowSel : BitVec 2
  /-- `row_oe`, the row output enable (R21). -/
  rowOe : Bool
  /-- `latched`, the row driver's output stage; `none` is the spec's own "unknown" (R22). -/
  latched : Option (List Byte)
  /-- The responses given so far, oldest first (R11, R50). -/
  responses : List Byte
  /-- The output events emitted so far, oldest first: the event history (R11, R23, R98). -/
  events : List Event
  /-- The refusal mark with its recorded values, oldest first (R10, R88): the mark is set when the list is not empty.
  Log entry 5. -/
  refusals : List Refusal
  /-- The model's own field: the sampled level of the input `bus_free` for the command being run (R75). Any value: "a
  free draw per step" (U7). Log entry 4. -/
  busFree : Bool
  /-- The model's own field: the host's commands still to be presented, oldest first (R8, R17). Log entry 2. -/
  port : List PortInput
  deriving DecidableEq, Repr

/-- The state after reset with the geometry `g` bound (R98). Nothing has been presented at the port (log entry 2), and
the level of `bus_free` is a value step never hands to a command (log entry 4). -/
def State.resetWith (g : Geometry) : State where
  geom := g
  fb := []
  phase := 0
  rowSel := 0
  rowOe := false
  latched := none
  responses := []
  events := []
  refusals := []
  busFree := true
  port := []

/-- The state after reset of a single-panel display (R98; the geometry is log entry 1). -/
def State.reset : State := State.resetWith Geometry.single

end Sys2Proof.Machine
end

