-- ==== Sys2Proof/Machine/Ops.lean ====
section
/-! DEFINITION. The named operations the commands are made of: reading and writing framebuffer bytes, the capability
interface of the panel (R95), the response (R50), and refusing (R10). The block raises no exceptions and has no trap
entry or return (R87, R92); refusing stands in their place. -/

namespace Sys2Proof.Machine

/-- What a framebuffer byte holds after reset, and so what an unlisted address reads as: all 8 pixels unlit (R98). -/
def Memory.unlisted : Byte := 0xFF

/-- `FB[a]`: the byte at an address (R14). -/
def Memory.read : Memory → Nat → Byte
  | [], _ => Memory.unlisted
  | (k, b) :: rest, a => if k = a then b else Memory.read rest a

/-- A cell in front of a memory, unless it holds what an unlisted address reads as. -/
def Memory.cons (a : Nat) (b : Byte) (m : Memory) : Memory :=
  if b = Memory.unlisted then m else (a, b) :: m

/-- `FB[a] <- b`: the memory with one byte written (R14), in canonical form. -/
def Memory.write : Memory → Nat → Byte → Memory
  | [], a, b => Memory.cons a b []
  | (k, c) :: rest, a, b =>
    if a < k then Memory.cons a b ((k, c) :: rest)
    else if a = k then Memory.cons a b rest
    else (k, c) :: Memory.write rest a b

/-- Every byte `0 .. n-1` set to `b`, and no other listed (R70). -/
def Memory.filled (n : Nat) (b : Byte) : Memory :=
  if b = Memory.unlisted then [] else (List.range n).map fun a => (a, b)

/-- Addresses strictly rising from `lo` on, and no cell that holds what an unlisted address reads as. -/
def Memory.wfFrom : Nat → Memory → Bool
  | _, [] => true
  | lo, (k, b) :: rest => decide (lo ≤ k) && b != Memory.unlisted && Memory.wfFrom (k + 1) rest

/-- The canonical form: equal memories are equal data. -/
def Memory.wf (m : Memory) : Bool := Memory.wfFrom 0 m

/-- Every listed address is below `n`: the memory holds no byte outside the address space (R28). -/
def Memory.below (n : Nat) (m : Memory) : Bool := m.all fun c => decide (c.1 < n)

/-- The framebuffer byte at an address (R14). -/
def State.byte (s : State) (a : Nat) : Byte := s.fb.read a

/-- The state with one framebuffer byte written (R14). -/
def State.storeByte (s : State) (a : Nat) (b : Byte) : State := { s with fb := s.fb.write a b }

/-- The state with every framebuffer byte written, in one step (R34, R70). -/
def State.fillBytes (s : State) (b : Byte) : State := { s with fb := Memory.filled s.geom.fbBytes b }

/-- `respond r` (R14, R50). -/
def State.respond (s : State) (r : Byte) : State := { s with responses := s.responses ++ [r] }

/-- `emit E`, for the events of a list in order (R14, R23). -/
def State.emit (s : State) (es : List Event) : State := { s with events := s.events ++ es }

/-- `transmitByte(b)` for the bytes of a list in order: it changes no block state but the event history (R24). -/
def State.transmit (s : State) (bytes : List Byte) : State := s.emit (bytes.map .tx)

/-- `setOutputEnabled(e)`: `OE(e)` sets `row_oe` (R21, R24). -/
def State.setOutputEnabled (s : State) (e : Bool) : State := { s.emit [.oe e] with rowOe := e }

/-- `latchOutput()`: `Latch` sets `latched` to the bytes transmitted in the same step, in order (R24). -/
def State.latchOutput (s : State) (bytes : List Byte) : State := { s.emit [.latch] with latched := some bytes }

/-- `setRowSelect(g)`: `RowSel(g)` sets `row_sel` (R20, R24). -/
def State.setRowSelect (s : State) (g : BitVec 2) : State := { s.emit [.rowSel g] with rowSel := g }

/-- `phase <- (phase + 1) mod 4` (R18, R80). -/
def State.advancePhase (s : State) : State := { s with phase := s.phase + 1 }

/-- The state a refused command leaves: as before it, with the refusal mark set and the refused value recorded (R10,
R88, R92). -/
def State.markRefused (s : State) (r : Refusal) : State := { s with refusals := s.refusals ++ [r] }

/-- The refusal mark, which stays set once a command was refused (R10, R88). -/
def State.refusalMark (s : State) : Bool := !s.refusals.isEmpty

/-- The host presents one more command after those already waiting (R8). -/
def State.present (s : State) (input : PortInput) : State := { s with port := s.port ++ [input] }

end Sys2Proof.Machine
end

