-- ==== Sys2Proof/Machine/Operands.lean ====
section
/-! DEFINITION. The operand forms: a pixel coordinate, through the bit-addresser (R57 to R59) and its inverse (R30); a
byte address, through its check (R71); the fill selector (R45, R70). -/

namespace Sys2Proof.Machine

/-- The mask of a column within a byte, MSB first: `0x80 >> c` (R31). -/
def columnMask (c : Nat) : Byte := (0x80 : Byte) >>> c

/-- A coordinate lies on the screen (R58). -/
def onScreen (g : Geometry) (x y : Int) : Bool :=
  decide (0 ≤ x) && decide (x < g.screenW) && decide (0 ≤ y) && decide (y < g.screenH)

/-- The byte of local column `lx` and local row `ly` of a panel, in the strip-row interleaved layout (R30). -/
def byteOf (g : Geometry) (panel lx ly : Nat) : Nat :=
  ly * g.stripRowBytes + panel * Config.bytesPerPanelRow + lx / 8

/-- The panel a pixel on the screen lies in, numbered left to right and then top to bottom (R57). -/
def panelOf (g : Geometry) (x y : Nat) : Nat := x / Config.panelW + g.dw * (y / Config.panelH)

/-- The bit-addresser on a coordinate on the screen: byte address and mask (R57). -/
def locate (g : Geometry) (x y : Nat) : Nat × Byte :=
  (byteOf g (panelOf g x y) (x % Config.panelW) (y % Config.panelH), columnMask (x % Config.panelW % 8))

/-- `ADDR(x, y)`: the byte address and the mask of a pixel, or `none` when the coordinate is off the screen (R57, R58). -/
def addresser (g : Geometry) (x y : Int) : Option (Nat × Byte) :=
  if onScreen g x y then some (locate g x.toNat y.toNat) else none

/-- The bit-addresser written with shifts and bit fields of the 16-bit coordinates, the other form of R59. -/
def addresserByShifts (g : Geometry) (x y : BitVec 16) : Option (Nat × Byte) :=
  if onScreen g x.toInt y.toInt then
    let panel := (x >>> 5).toNat + g.dw * (y >>> 4).toNat
    let lx := x.extractLsb' 0 5
    let ly := y.extractLsb' 0 4
    some (ly.toNat * g.stripRowBytes + panel * Config.bytesPerPanelRow + (lx >>> 3).toNat,
      (0x80 : Byte) >>> (lx.extractLsb' 0 3).toNat)
  else none

/-- The pixel of the bit with mask `0x80 >> c` of byte `a`: the inverse of the layout (R30), with the panel's place on
the screen (R57). -/
def pixelAt (g : Geometry) (a c : Nat) : Int × Int :=
  let ly := a / g.stripRowBytes
  let panel := a % g.stripRowBytes / 4
  let lx := 8 * (a % 4) + c
  ((Config.panelW * (panel % g.dw) + lx : Nat), (Config.panelH * (panel / g.dw) + ly : Nat))

/-- A byte command with its address checked: refused when the address is outside the framebuffer (R71). -/
def withAddress (addr : Nat) (s : State) (done : State) : Host.Outcome State Fault Refusal :=
  if addr ≥ s.geom.fbBytes then .refused (.addressOutOfRange addr) else .next done

/-- The byte FILL writes: `0xFF` (unlit) for `normal`, else `0x00` (lit) (R45, R70). -/
def fillByte (normal : Bool) : Byte := if normal then 0xFF else 0x00

end Sys2Proof.Machine
end

