-- ==== Sys2Proof/Machine/Framebuffer.lean ====
section
/-! DEFINITION. NOP and the whole-framebuffer and byte commands (41_framebuffer.md). -/

namespace Sys2Proof.Machine

/-- NOP (R69): no state changes, no event, no response. -/
def execNop (s : State) : Host.Outcome State Fault Refusal := .next s

/-- FILL (R70): every byte, in one atomic step. -/
def execFill (normal : Bool) (s : State) : Host.Outcome State Fault Refusal :=
  .next (s.fillBytes (fillByte normal))

/-- READ_BYTE (R72): the raw stored byte. -/
def execReadByte (addr : Nat) (s : State) : Host.Outcome State Fault Refusal :=
  withAddress addr s (s.respond (s.byte addr))

/-- WRITE_BYTE (R73): the data byte, unchanged. -/
def execWriteByte (addr : Nat) (data : Byte) (s : State) : Host.Outcome State Fault Refusal :=
  withAddress addr s (s.storeByte addr data)

end Sys2Proof.Machine
end

