-- ==== Sys2Proof/Machine/Flags.lean ====
section
/-! DEFINITION. The block has no flags and no condition codes (R25). The only status bits a command reports are `VALID`
and `BIT` of READ_PIXEL's response (R50), and the only bit a command tests is the stored bit under a mask (R60). -/

namespace Sys2Proof.Machine

/-- `existing = (b & m) != 0`: the stored bit under the mask, true when the pixel is unlit (R15, R60). -/
def storedBit (b m : Byte) : Bool := b &&& m != 0

/-- READ_PIXEL's response: bit 0 is `VALID`, bit 1 is `BIT`, the others 0; `0x00` off the screen (R50, R67). -/
def pixelResponse : Option Bool → Byte
  | none => 0x00
  | some bit => if bit then 0x03 else 0x01

end Sys2Proof.Machine
end

