-- ==== Sys2Proof/Syntax.lean ====
section
/-! DEFINITION. The commands of the block: one constructor per row of spec/opcode_table.json (R43, R44, R52). Operands
are the integers the spec computes with (R13, R47, R48), not fields of the word; WellFormed.lean says which of them an
encoding admits. -/

namespace Sys2Proof

/-- The five graphics modes, in the order of R44. A mode is a field of a command and never state (R26). -/
inductive Mode
  | normal
  | inverse
  | toggle
  | or
  | nor
  deriving DecidableEq, Repr

/-- The command set (R52). A coordinate is an integer (R47), a byte address a natural number (R48), the pixel value and
the fill selector one bit (R45), the data byte 8 bits (R49). -/
inductive Instr
  /-- NOP (R69). -/
  | nop
  /-- WRITE_PIXEL.NORMAL (R61). -/
  | writePixelNormal (x y : Int) (v : Bool)
  /-- WRITE_PIXEL.INVERSE (R62). -/
  | writePixelInverse (x y : Int) (v : Bool)
  /-- WRITE_PIXEL.TOGGLE (R63). -/
  | writePixelToggle (x y : Int) (v : Bool)
  /-- WRITE_PIXEL.OR (R64). -/
  | writePixelOr (x y : Int) (v : Bool)
  /-- WRITE_PIXEL.NOR (R65). -/
  | writePixelNor (x y : Int) (v : Bool)
  /-- READ_PIXEL (R67). -/
  | readPixel (x y : Int)
  /-- FILL (R70). -/
  | fill (normal : Bool)
  /-- READ_BYTE (R72). -/
  | readByte (addr : Nat)
  /-- WRITE_BYTE (R73). -/
  | writeByte (addr : Nat) (data : Byte)
  /-- SCAN_STEP (R76). -/
  | scanStep
  deriving DecidableEq, Repr

/-- WRITE_PIXEL has one row of the table per mode (R52): the command of a mode. -/
def Instr.writePixel (mode : Mode) (x y : Int) (v : Bool) : Instr :=
  match mode with
  | .normal => .writePixelNormal x y v
  | .inverse => .writePixelInverse x y v
  | .toggle => .writePixelToggle x y v
  | .or => .writePixelOr x y v
  | .nor => .writePixelNor x y v

/-- The mnemonic of a command's row in R52. -/
def Instr.mnemonic : Instr → String
  | .nop => "NOP"
  | .writePixelNormal _ _ _ => "WRITE_PIXEL.NORMAL"
  | .writePixelInverse _ _ _ => "WRITE_PIXEL.INVERSE"
  | .writePixelToggle _ _ _ => "WRITE_PIXEL.TOGGLE"
  | .writePixelOr _ _ _ => "WRITE_PIXEL.OR"
  | .writePixelNor _ _ _ => "WRITE_PIXEL.NOR"
  | .readPixel _ _ => "READ_PIXEL"
  | .fill _ => "FILL"
  | .readByte _ => "READ_BYTE"
  | .writeByte _ _ => "WRITE_BYTE"
  | .scanStep => "SCAN_STEP"

end Sys2Proof
end

