-- ==== Sys2Proof/Machine/Mux.lean ====
section
/-! DEFINITION. The pixel composition mux: the byte a pixel write stores, from the value bit, the existing byte and the
mask, one function per mode (R60 to R65), in the spec's own pseudocode. -/

namespace Sys2Proof.Machine

/-- `COMPOSE_NORMAL` (R61). -/
def composeNormal (v : Bool) (b m : Byte) : Byte := if v then b &&& ~~~m else b ||| m

/-- `COMPOSE_INVERSE` (R62). -/
def composeInverse (v : Bool) (b m : Byte) : Byte := if v then b ||| m else b &&& ~~~m

/-- `COMPOSE_TOGGLE` (R63). -/
def composeToggle (v : Bool) (b m : Byte) : Byte := if v then b ^^^ m else b

/-- `COMPOSE_OR` (R64). -/
def composeOr (v : Bool) (b m : Byte) : Byte := if v then b &&& ~~~m else b

/-- `COMPOSE_NOR`, as the truth table reads (R65). -/
def composeNor (v : Bool) (b m : Byte) : Byte := if v && !storedBit b m then b ||| m else b

/-- The composition mux: the mode selects the function (R60). -/
def compose : Mode → Bool → Byte → Byte → Byte
  | .normal => composeNormal
  | .inverse => composeInverse
  | .toggle => composeToggle
  | .or => composeOr
  | .nor => composeNor

/-- The truth table of R66 (b): the stored bit after a write, from the mode, the value and the stored bit before. -/
def truthTable (mode : Mode) (v existing : Bool) : Bool :=
  match mode, v with
  | .normal, true => false
  | .normal, false => true
  | .inverse, true => true
  | .inverse, false => false
  | .toggle, true => !existing
  | .toggle, false => existing
  | .or, true => false
  | .or, false => existing
  | .nor, true => true
  | .nor, false => existing

end Sys2Proof.Machine
end

