-- ==== Sys2Proof/Machine/Pixel.lean ====
section
/-! DEFINITION. The pixel commands: WRITE_PIXEL in its five modes (R60 to R65) and READ_PIXEL (R67). -/

namespace Sys2Proof.Machine

/-- WRITE_PIXEL, common part (R60): nothing off the screen (R58), else a read-modify-write of one byte. -/
def writePixel (mux : Bool → Byte → Byte → Byte) (x y : Int) (v : Bool) (s : State) : State :=
  match addresser s.geom x y with
  | none => s
  | some (a, m) => s.storeByte a (mux v (s.byte a) m)

/-- WRITE_PIXEL.NORMAL (R61). -/
def execWritePixelNormal (x y : Int) (v : Bool) (s : State) : Host.Outcome State Fault Refusal :=
  .next (writePixel composeNormal x y v s)

/-- WRITE_PIXEL.INVERSE (R62). -/
def execWritePixelInverse (x y : Int) (v : Bool) (s : State) : Host.Outcome State Fault Refusal :=
  .next (writePixel composeInverse x y v s)

/-- WRITE_PIXEL.TOGGLE (R63). -/
def execWritePixelToggle (x y : Int) (v : Bool) (s : State) : Host.Outcome State Fault Refusal :=
  .next (writePixel composeToggle x y v s)

/-- WRITE_PIXEL.OR (R64). -/
def execWritePixelOr (x y : Int) (v : Bool) (s : State) : Host.Outcome State Fault Refusal :=
  .next (writePixel composeOr x y v s)

/-- WRITE_PIXEL.NOR (R65). -/
def execWritePixelNor (x y : Int) (v : Bool) (s : State) : Host.Outcome State Fault Refusal :=
  .next (writePixel composeNor x y v s)

/-- The stored bit of a pixel, when it is on the screen (R67). -/
def pixelBit (s : State) (x y : Int) : Option Bool :=
  (addresser s.geom x y).map fun p => storedBit (s.byte p.1) p.2

/-- READ_PIXEL (R67): it answers off the screen too, and changes nothing but the response. -/
def execReadPixel (x y : Int) (s : State) : Host.Outcome State Fault Refusal :=
  .next (s.respond (pixelResponse (pixelBit s x y)))

end Sys2Proof.Machine
end

