-- ==== Sys2Proof/Machine/Scan.lean ====
section
/-! DEFINITION. SCAN_STEP: the row-scan multiplexer and the shift-chain serializer (42_scan.md). -/

namespace Sys2Proof.Machine

/-- The framebuffer addresses a scan step at phase `p` transmits, in order: byte column outer, bottom band first
(R76). -/
def scanAddrs (g : Geometry) (p : BitVec 2) : List Nat :=
  (List.range g.stripRowBytes).flatMap fun i =>
    [3, 2, 1, 0].map fun k => (p.toNat + 4 * k) * g.stripRowBytes + i

/-- `L`, the bytes a scan step transmits (R76). -/
def scanBytes (s : State) : List Byte := (scanAddrs s.geom s.phase).map s.byte

/-- A scan step that finds the bus free (R76): transmit, disable the rows, latch, select the row group just shifted
(R79), enable the rows, and last advance the cursor (R80). -/
def scanFree (s : State) : State :=
  let bytes := scanBytes s
  ((((s.transmit bytes).setOutputEnabled false).latchOutput bytes).setRowSelect s.phase
    |>.setOutputEnabled true).advancePhase

/-- SCAN_STEP (R76): `bus_free` is sampled once, and a busy bus makes the step a complete no-op (R75). -/
def execScanStep (s : State) : Host.Outcome State Fault Refusal :=
  .next (if s.busFree then scanFree s else s)

end Sys2Proof.Machine
end

