-- ==== Sys2Proof/Machine/Dispatch.lean ====
section
/-! DEFINITION. One arm per command: its meaning. -/

namespace Sys2Proof.Machine

/-- What a command does (the rules of 40_pixel.md, 41_framebuffer.md and 42_scan.md). -/
def exec (i : Instr) (s : State) : Host.Outcome State Fault Refusal :=
  match i with
  | .nop => Sys2Proof.Machine.execNop s
  | .writePixelNormal x y v => Sys2Proof.Machine.execWritePixelNormal x y v s
  | .writePixelInverse x y v => Sys2Proof.Machine.execWritePixelInverse x y v s
  | .writePixelToggle x y v => Sys2Proof.Machine.execWritePixelToggle x y v s
  | .writePixelOr x y v => Sys2Proof.Machine.execWritePixelOr x y v s
  | .writePixelNor x y v => Sys2Proof.Machine.execWritePixelNor x y v s
  | .readPixel x y => Sys2Proof.Machine.execReadPixel x y s
  | .fill normal => Sys2Proof.Machine.execFill normal s
  | .readByte addr => Sys2Proof.Machine.execReadByte addr s
  | .writeByte addr data => Sys2Proof.Machine.execWriteByte addr data s
  | .scanStep => Sys2Proof.Machine.execScanStep s

end Sys2Proof.Machine
end

