-- ==== Sys2Proof/WellFormed.lean ====
section
/-! DEFINITION. Which commands an encoding admits: the coordinates that fit the signed 16-bit fields X and Y (R7, R47)
and the byte addresses that fit the unsigned 16-bit field ADDR (R7, R48); the same ranges the assembler admits (R56).
The pixel value, the fill selector and the data byte fit their fields by their types. -/

namespace Sys2Proof

/-- A coordinate lies in `-32768 .. 32767` (R7, R47). -/
def coordOk (x : Int) : Bool := decide (-32768 ≤ x) && decide (x ≤ 32767)

/-- A byte address lies in `0 .. 65535` (R7, R48). -/
def addrOk (a : Nat) : Bool := decide (a < 65536)

/-- Every operand fits its field of the command word (R46, R47, R48). -/
def Instr.wellFormed : Instr → Bool
  | .nop => true
  | .writePixelNormal x y _ => coordOk x && coordOk y
  | .writePixelInverse x y _ => coordOk x && coordOk y
  | .writePixelToggle x y _ => coordOk x && coordOk y
  | .writePixelOr x y _ => coordOk x && coordOk y
  | .writePixelNor x y _ => coordOk x && coordOk y
  | .readPixel x y => coordOk x && coordOk y
  | .fill _ => true
  | .readByte a => addrOk a
  | .writeByte a _ => addrOk a
  | .scanStep => true

end Sys2Proof
end

