-- ==== Sys2Proof/Decode.lean ====
section
/-! DEFINITION. From a 64-bit command word to a command, total, and back (30_encoding.md). The word is cut into the
fields of R42; the command is selected by OP and, for WRITE_PIXEL, by MODE, and then every field that R46 marks `0` is
checked (R51). A word that is no command is rejected by the case of R53 it falls under. The encoder and the table of R52
follow the decoder. -/

namespace Sys2Proof

/-- The fields of the command word (R42). -/
structure Fields where
  /-- `OP`, bits `[3:0]`. -/
  op : BitVec 4
  /-- `MODE`, bits `[6:4]`. -/
  mode : BitVec 3
  /-- `V`, bit `[7]`. -/
  v : BitVec 1
  /-- `DATA`, bits `[15:8]`. -/
  data : Byte
  /-- `X` or `ADDR`, bits `[31:16]`. -/
  xa : BitVec 16
  /-- `Y`, bits `[47:32]`. -/
  y : BitVec 16
  /-- `RSVD`, bits `[63:48]`. -/
  rsvd : BitVec 16
  deriving DecidableEq, Repr

/-- Why a word is reserved: the three cases of R53. -/
inductive Reserved
  /-- `OP` in `0x7 .. 0xF`. -/
  | opcode (op : BitVec 4)
  /-- `OP = 1` with `MODE` in `5 .. 7`. -/
  | mode (mode : BitVec 3)
  /-- A non-zero bit in a field that R46 marks `0`. -/
  | nonzeroField
  deriving DecidableEq, Repr

/-- The fields of a word, by the bit positions of R42. -/
def fieldsOf (w : Word) : Fields where
  op := w.extractLsb' 0 4
  mode := w.extractLsb' 4 3
  v := w.extractLsb' 7 1
  data := w.extractLsb' 8 8
  xa := w.extractLsb' 16 16
  y := w.extractLsb' 32 16
  rsvd := w.extractLsb' 48 16

/-- The mode of a `MODE` value (R44); `5`, `6` and `7` are reserved. -/
def modeOf (m : BitVec 3) : Option Mode :=
  if m = 0 then some .normal
  else if m = 1 then some .inverse
  else if m = 2 then some .toggle
  else if m = 3 then some .or
  else if m = 4 then some .nor
  else none

/-- `ok i` when every field that must be zero is zero (R46, R53). -/
def whenZero (zero : Bool) (i : Instr) : Except Reserved Instr :=
  if zero then .ok i else .error .nonzeroField

/-- `MODE`, `V`, `DATA`, `Y` and `RSVD` as the rows of R46 for the commands other than WRITE_PIXEL constrain them: each
flag says that the field must be zero; `MODE` and `RSVD` always must. -/
def Fields.zeroBut (f : Fields) (v data xa y : Bool) : Bool :=
  f.mode == 0 && f.rsvd == 0 && (!v || f.v == 0) && (!data || f.data == 0) && (!xa || f.xa == 0) && (!y || f.y == 0)

/-- The command of a word's fields (R43, R44, R46 to R49, R51). Coordinates are sign-extended (R47), addresses
zero-extended (R48). -/
def decodeFields (f : Fields) : Except Reserved Instr :=
  if f.op = 0 then whenZero (f.zeroBut true true true true) .nop
  else if f.op = 1 then
    match modeOf f.mode with
    | some m => whenZero (f.data == 0 && f.rsvd == 0) (.writePixel m f.xa.toInt f.y.toInt (f.v == 1))
    | none => .error (.mode f.mode)
  else if f.op = 2 then whenZero (f.zeroBut true true false false) (.readPixel f.xa.toInt f.y.toInt)
  else if f.op = 3 then whenZero (f.zeroBut false true true true) (.fill (f.v == 1))
  else if f.op = 4 then whenZero (f.zeroBut true true false true) (.readByte f.xa.toNat)
  else if f.op = 5 then whenZero (f.zeroBut true false false true) (.writeByte f.xa.toNat f.data)
  else if f.op = 6 then whenZero (f.zeroBut true true true true) .scanStep
  else .error (.opcode f.op)

/-- The decoder: every 64-bit word is exactly one command or is reserved (R51, R53). -/
def decode (w : Word) : Except Reserved Instr := decodeFields (fieldsOf w)

/-- The word of the fields: each at its bits (R42), `{RSVD, Y, X, DATA, V, MODE, OP}`. -/
def wordOf (f : Fields) : Word := f.rsvd ++ f.y ++ f.xa ++ f.data ++ f.v ++ f.mode ++ f.op

/-- The `MODE` value of a mode (R44). -/
def modeCode : Mode → BitVec 3
  | .normal => 0
  | .inverse => 1
  | .toggle => 2
  | .or => 3
  | .nor => 4

/-- The fields of a WRITE_PIXEL of a mode (R46, format `P`). -/
def pixelFields (m : Mode) (x y : Int) (v : Bool) : Fields :=
  ⟨1, modeCode m, BitVec.ofBool v, 0, BitVec.ofInt 16 x, BitVec.ofInt 16 y, 0⟩

/-- The fields of a command, by its row of R46. -/
def encodeFields : Instr → Fields
  | .nop => ⟨0, 0, 0, 0, 0, 0, 0⟩
  | .writePixelNormal x y v => pixelFields .normal x y v
  | .writePixelInverse x y v => pixelFields .inverse x y v
  | .writePixelToggle x y v => pixelFields .toggle x y v
  | .writePixelOr x y v => pixelFields .or x y v
  | .writePixelNor x y v => pixelFields .nor x y v
  | .readPixel x y => ⟨2, 0, 0, 0, BitVec.ofInt 16 x, BitVec.ofInt 16 y, 0⟩
  | .fill v => ⟨3, 0, BitVec.ofBool v, 0, 0, 0, 0⟩
  | .readByte a => ⟨4, 0, 0, 0, BitVec.ofNat 16 a, 0, 0⟩
  | .writeByte a d => ⟨5, 0, 0, d, BitVec.ofNat 16 a, 0, 0⟩
  | .scanStep => ⟨6, 0, 0, 0, 0, 0, 0⟩

/-- The encoder: the one 64-bit word of a well-formed command (R42, R46, R55). -/
def encode (i : Instr) : Word := wordOf (encodeFields i)

/-- A row of the opcode map (R52): a bit set in `mask` is fixed to the bit of `pattern`. -/
structure OpcodeRow where
  mnemonic : String
  pattern : Word
  mask : Word
  deriving DecidableEq, Repr

/-- The opcode map, as R52 prints it. -/
def opcodeRows : List OpcodeRow :=
  [⟨"NOP", 0x0000000000000000, 0xFFFFFFFFFFFFFFFF⟩,
   ⟨"WRITE_PIXEL.NORMAL", 0x0000000000000001, 0xFFFF00000000FF7F⟩,
   ⟨"WRITE_PIXEL.INVERSE", 0x0000000000000011, 0xFFFF00000000FF7F⟩,
   ⟨"WRITE_PIXEL.TOGGLE", 0x0000000000000021, 0xFFFF00000000FF7F⟩,
   ⟨"WRITE_PIXEL.OR", 0x0000000000000031, 0xFFFF00000000FF7F⟩,
   ⟨"WRITE_PIXEL.NOR", 0x0000000000000041, 0xFFFF00000000FF7F⟩,
   ⟨"READ_PIXEL", 0x0000000000000002, 0xFFFF00000000FFFF⟩,
   ⟨"FILL", 0x0000000000000003, 0xFFFFFFFFFFFFFF7F⟩,
   ⟨"READ_BYTE", 0x0000000000000004, 0xFFFFFFFF0000FFFF⟩,
   ⟨"WRITE_BYTE", 0x0000000000000005, 0xFFFFFFFF000000FF⟩,
   ⟨"SCAN_STEP", 0x0000000000000006, 0xFFFFFFFFFFFFFFFF⟩]

/-- A word matches a row when its masked bits are the row's (R51). -/
def OpcodeRow.fits (r : OpcodeRow) (w : Word) : Bool := w &&& r.mask == r.pattern

/-- What the decoder reads from a word given as a number of `nbits` bits, bit 0 the least significant; the bits above
`nbits` are zero. The block has one word of 64 bits and no byte order (R32, R55), so the number is the word. -/
def decodeTableWord (nbits w : Nat) : Option Instr :=
  match decode (BitVec.ofNat 64 (w % 2 ^ nbits)) with
  | .ok i => some i
  | .error _ => none

end Sys2Proof
end

