-- ==== Sys2Proof/Machine/Port.lean ====
section
/-! DEFINITION. The command port: taking the next command the host presents (R8, R42), and the state a refused command
leaves (R10). -/

namespace Sys2Proof.Machine

/-- The state in which a presented command runs: the command has left the port, and the input `bus_free` stands at the
command's level (R8, R75). -/
def State.taking (s : State) (input : PortInput) (rest : List PortInput) : State :=
  { s with port := rest, busFree := input.busFree }

/-- A presented word as a command, or the refusal of a reserved word, which records the word (R53, R88). -/
def commandOf (w : Word) : Except Refusal Instr :=
  match decode w with
  | .ok i => .ok i
  | .error _ => .error (.reservedEncoding w)

/-- The state after the presented command was refused: nothing of the block has changed, the refusal is recorded, and
the command has left the port (R10, R88, R92). -/
def State.afterRefusal (s : State) (r : Refusal) : State := { s.markRefused r with port := s.port.tail }

/-- The word presented next, in front of the commands already waiting: a number of `nbits` bits, the bits above zero. -/
def State.presentNext (s : State) (nbits w : Nat) : State :=
  { s with port := ⟨BitVec.ofNat 64 (w % 2 ^ nbits), s.busFree⟩ :: s.port }

end Sys2Proof.Machine
end

