-- ==== Sys2Proof/Machine/Step.lean ====
section
/-! DEFINITION. One step of the block: one whole command (R8). -/

namespace Sys2Proof.Machine

/-- One step: the block takes the next command the host presents and performs it whole (R8), or refuses it (R10).
Decoding comes first (R89). With no command presented nothing happens: the block "takes no step of its own" (R9; log
entry 3). -/
def step (s : State) : Host.Outcome State Fault Refusal :=
  match s.port with
  | [] => .next s
  | input :: rest =>
    match commandOf input.word with
    | .ok i => exec i (s.taking input rest)
    | .error r => .refused r

/-- One step with both outcomes of R10 as states: a done step's next state, and after a refused step the unchanged state
with the refusal mark set, from which the host goes on (R10, R88; log entry 5). -/
def advance (s : State) : State :=
  match step s with
  | .next t => t
  | .refused r => s.afterRefusal r
  | .fault f => nomatch f

/-- `k` steps with both outcomes of R10 as states. -/
def advanceN : Nat → State → State
  | 0, s => s
  | k + 1, s => advanceN k (advance s)

/-- The state with one word presented next, so that the very next step runs it (log entry 2). -/
def State.withFetchWord (s : State) (nbits w : Nat) : State := s.presentNext nbits w

end Sys2Proof.Machine
end

