-- ==== Sys2Proof/Machine/Assembler.lean ====
section
/-! DEFINITION. The spec's assembler syntax (R56): a line of text to one command word, with the pseudo-instructions and
the operand ranges the assembler rejects. What R56 leaves open about the text is log entry 16. -/

namespace Sys2Proof.Machine

/-- A line of the assembler, its operands still any integers (R56). -/
inductive AsmLine
  | nop
  | wpix (mode : Mode) (x y v : Int)
  | rpix (x y : Int)
  | fill (n : Int)
  | rbyte (addr : Int)
  | wbyte (addr data : Int)
  | scan
  /-- Pseudo: every pixel unlit. -/
  | clear
  /-- Pseudo: every pixel lit. -/
  | clearLit
  /-- Pseudo: light one pixel. -/
  | pset (x y : Int)
  /-- Pseudo: unlight one pixel. -/
  | pclr (x y : Int)
  /-- Pseudo: invert one pixel. -/
  | pflip (x y : Int)
  deriving DecidableEq, Repr

/-- The pseudo-instructions, "each expanding to exactly one command" (R56); the other lines stand as they are. -/
def AsmLine.expand : AsmLine → AsmLine
  | .clear => .fill 1
  | .clearLit => .fill 0
  | .pset x y => .wpix .normal x y 1
  | .pclr x y => .wpix .normal x y 0
  | .pflip x y => .wpix .toggle x y 1
  | line => line

/-- A `v` or `n` operand: 0 or 1, any other rejected (R56). -/
def bitOperand (n : Int) : Option Bool := if n = 0 then some false else if n = 1 then some true else none

/-- An address operand: `0 .. 65535`, any other rejected (R56). -/
def addrOperand (n : Int) : Option Nat := if 0 ≤ n ∧ n ≤ 65535 then some n.toNat else none

/-- A data operand: `0 .. 255`, any other rejected (R56). -/
def dataOperand (n : Int) : Option Byte := if 0 ≤ n ∧ n ≤ 255 then some (BitVec.ofInt 8 n) else none

/-- A coordinate operand: `-32768 .. 32767`, any other rejected (R56). -/
def coordOperand (n : Int) : Option Int := if coordOk n then some n else none

/-- The command of a line, or `none` where the assembler rejects an operand (R56). -/
def AsmLine.command (line : AsmLine) : Option Instr :=
  match line.expand with
  | .nop => some .nop
  | .wpix m x y v => do return .writePixel m (← coordOperand x) (← coordOperand y) (← bitOperand v)
  | .rpix x y => do return .readPixel (← coordOperand x) (← coordOperand y)
  | .fill n => do return .fill (← bitOperand n)
  | .rbyte a => do return .readByte (← addrOperand a)
  | .wbyte a d => do return .writeByte (← addrOperand a) (← dataOperand d)
  | .scan => some .scanStep
  | .clear | .clearLit | .pset _ _ | .pclr _ _ | .pflip _ _ => none

/-- The word of a line (R56). -/
def AsmLine.assemble (line : AsmLine) : Option Word := line.command.map encode

/-- A blank of the text. -/
def isBlank (c : Char) : Bool := c == ' ' || c == '\t'

/-- Text without the blanks at its ends. -/
def trimBlanks (cs : List Char) : List Char := ((cs.dropWhile isBlank).reverse.dropWhile isBlank).reverse

/-- The pieces of a text between its commas. -/
def splitCommas : List Char → List (List Char)
  | [] => [[]]
  | c :: cs =>
    match splitCommas cs with
    | [] => [[c]]
    | p :: ps => if c = ',' then [] :: p :: ps else (c :: p) :: ps

/-- The value of a digit in a base up to 16. -/
def digitOf (base : Nat) (c : Char) : Option Nat :=
  let n := c.toNat
  let d := if 48 ≤ n ∧ n ≤ 57 then n - 48 else if 97 ≤ n ∧ n ≤ 102 then n - 87 else if 65 ≤ n ∧ n ≤ 70 then n - 55 else 16
  if d < base then some d else none

/-- The number that digits continue, from the value `acc` of the digits before them. -/
def digitsFrom (base : Nat) : Nat → List Char → Option Nat
  | acc, [] => some acc
  | acc, c :: cs => (digitOf base c).bind fun d => digitsFrom base (acc * base + d) cs

/-- A decimal or `0x` hexadecimal number (R56). -/
def numberOf : List Char → Option Nat
  | [] => none
  | '0' :: 'x' :: c :: cs => digitsFrom 16 0 (c :: cs)
  | c :: cs => digitsFrom 10 0 (c :: cs)

/-- An operand of a line: a number, or a minus sign and a number (R56). -/
def operandOf (cs : List Char) : Option Int :=
  match trimBlanks cs with
  | '-' :: rest => (numberOf rest).map fun n => -(n : Int)
  | rest => (numberOf rest).map fun n => (n : Int)

/-- The operands of a line, from the text after its mnemonic. -/
def operandsOf (cs : List Char) : Option (List Int) :=
  if (trimBlanks cs).isEmpty then some [] else (splitCommas cs).mapM operandOf

/-- A mnemonic with its operands as a line (R56). -/
def lineOf (mnemonic : String) (operands : List Int) : Option AsmLine :=
  match mnemonic, operands with
  | "nop", [] => some .nop
  | "wpix.normal", [x, y, v] => some (.wpix .normal x y v)
  | "wpix.inverse", [x, y, v] => some (.wpix .inverse x y v)
  | "wpix.toggle", [x, y, v] => some (.wpix .toggle x y v)
  | "wpix.or", [x, y, v] => some (.wpix .or x y v)
  | "wpix.nor", [x, y, v] => some (.wpix .nor x y v)
  | "rpix", [x, y] => some (.rpix x y)
  | "fill", [n] => some (.fill n)
  | "rbyte", [a] => some (.rbyte a)
  | "wbyte", [a, d] => some (.wbyte a d)
  | "scan", [] => some .scan
  | "clear", [] => some .clear
  | "clear.lit", [] => some .clearLit
  | "pset", [x, y] => some (.pset x y)
  | "pclr", [x, y] => some (.pclr x y)
  | "pflip", [x, y] => some (.pflip x y)
  | _, _ => none

/-- One line of text: the mnemonic, then its operands separated by commas (R56). -/
def parseLine (text : String) : Option AsmLine :=
  let cs := trimBlanks text.toList
  let mnemonic := cs.takeWhile fun c => !isBlank c
  (operandsOf (cs.dropWhile fun c => !isBlank c)).bind (lineOf (String.ofList mnemonic))

/-- The command word of one line of text (R56). -/
def assembleText (text : String) : Option Word := (parseLine text).bind AsmLine.assemble

end Sys2Proof.Machine
end

