-- ==== Sys2Proof/Machine/Panel.lean ====
section
/-! DEFINITION. The panel chain, a passive sink for the output events (R9 (3)): what each event does to the output stage
and the row lines (R24), and what the row lines light (R20, R77, R97). Nothing here says which LED a bit drives (R81,
N12). -/

namespace Sys2Proof.Machine

/-- What the events drive: the bytes in the shift chain since the last latch, the output stage, and the row lines. -/
structure Panel where
  chain : List Byte
  latched : Option (List Byte)
  rowSel : BitVec 2
  rowOe : Bool
  deriving DecidableEq, Repr

/-- The panel at reset: the chain empty, the output stage unknown, the rows off (R98). -/
def Panel.atReset : Panel := ⟨[], none, 0, false⟩

/-- What one event does (R23, R24). -/
def Panel.on (p : Panel) : Event → Panel
  | .tx b => { p with chain := p.chain ++ [b] }
  | .latch => { p with latched := some p.chain, chain := [] }
  | .rowSel g => { p with rowSel := g }
  | .oe e => { p with rowOe := e }

/-- What a list of events does, in order. -/
def Panel.after (p : Panel) (es : List Event) : Panel := es.foldl Panel.on p

/-- The panel as the block's output registers hold it between two commands (R24). -/
def State.panel (s : State) : Panel := ⟨[], s.latched, s.rowSel, s.rowOe⟩

/-- The level of row-select line A (R20). -/
def State.lineA (s : State) : Bool := s.rowSel.getLsbD 0

/-- The level of row-select line B (R20). -/
def State.lineB (s : State) : Bool := s.rowSel.getLsbD 1

/-- The local rows of a row group: one row of each band (R77). -/
def rowGroup (g : BitVec 2) : List Nat := [g.toNat, g.toNat + 4, g.toNat + 8, g.toNat + 12]

/-- Whether the LEDs of a local row are driven: the rows of group `row_sel` while `row_oe` is true, no other (R77). -/
def State.rowLit (s : State) (row : Nat) : Bool := s.rowOe && (rowGroup s.rowSel).contains row

/-- The bytes the lit rows are driven from: those of the output stage (R77), none while no row is lit or the content is
unknown. -/
def State.drivenBytes (s : State) : Option (List Byte) := if s.rowOe then s.latched else none

/-- "The display is dark exactly while `row_oe = false`" (R97). -/
def State.dark (s : State) : Bool := !s.rowOe

end Sys2Proof.Machine
end

