-- ==== Sys2Proof/Safety.lean ====
section
/-! DEFINITION. The terms claims are stated in: the observation of a run (R11), a run of commands, the invariant of the
block, and the premise of no refusal (R88). -/

namespace Sys2Proof.Machine

/-- What a run shows (R11). -/
structure Observation where
  /-- The framebuffer contents, byte `0` first. -/
  fb : List Byte
  phase : BitVec 2
  rowSel : BitVec 2
  rowOe : Bool
  latched : Option (List Byte)
  responses : List Byte
  events : List Event
  deriving DecidableEq, Repr

/-- The observation of a run that ended in a state (R11). -/
def State.observe (s : State) : Observation :=
  ⟨(List.range s.geom.fbBytes).map s.byte, s.phase, s.rowSel, s.rowOe, s.latched, s.responses, s.events⟩

/-- "Every claim takes 'no refusal' as a premise" (R88): no command of the run so far was refused. -/
def State.noRefusal (s : State) : Prop := s.refusalMark = false

/-- Commands performed one after the other, stopping at the first that is refused. -/
def execAll : List Instr → State → Host.Outcome State Fault Refusal
  | [], s => .next s
  | i :: is, s =>
    match exec i s with
    | .next t => execAll is t
    | .fault f => .fault f
    | .refused r => .refused r

/-- SCAN_STEPs one after the other with no other command between them, each with its level of `bus_free` (R82). -/
def scanRun : List Bool → State → Host.Outcome State Fault Refusal
  | [], s => .next s
  | level :: levels, s =>
    match exec .scanStep { s with busFree := level } with
    | .next t => scanRun levels t
    | .fault f => .fault f
    | .refused r => .refused r

/-- An outcome that stores one framebuffer byte and does nothing else: the next state differs in the framebuffer alone,
whose byte `a` reads as `b` while every other address reads as before. A canonical framebuffer stays canonical. -/
def StoresByte (outcome : Host.Outcome State Fault Refusal) (s : State) (a : Nat) (b : Byte) : Prop :=
  ∃ fb, outcome = .next { s with fb := fb } ∧
    (s.fb.wf = true → fb.wf = true ∧ ∀ a', fb.read a' = if a' = a then b else s.fb.read a')

/-- The invariant of the block. -/
structure State.Inv (s : State) : Prop where
  /-- The framebuffer is in canonical form. -/
  canonical : s.fb.wf = true
  /-- No byte outside the address space is held (R28). -/
  inSpace : s.fb.below s.geom.fbBytes = true
  /-- The output stage, once known, holds `BYTES_PER_SCAN` bytes (R22). -/
  stageFull : ∀ bytes, s.latched = some bytes → bytes.length = s.geom.bytesPerScan
  /-- Before the first bus-free scan step no row is lit and the cursor stands at the first phase (R98, R102). -/
  beforeScan : s.latched = none → s.rowOe = false ∧ s.rowSel = 0 ∧ s.phase = 0
  /-- From the first bus-free scan step on, rows stay lit between steps (R21) and the cursor is one ahead of the group
  selected (R79, R80). -/
  afterScan : s.latched ≠ none → s.rowOe = true ∧ s.phase = s.rowSel + 1
  /-- The output registers are what the event history drives (R24). -/
  panelDriven : Panel.atReset.after s.events = s.panel

end Sys2Proof.Machine
end

