-- ==== Sys2Proof/Certificates/Slice0/Obligations.lean ====
section
/-! DEFINITION. The statements for the provers, from the numbered rules of spec/. A statement whose docstring names a
log entry (A<n>) rests on that choice of the model; one that says "the spec derives" formalises a sentence the spec marks
as its own inference. -/

open Sys2Proof Sys2Proof.Machine

/-! ## Encoding -/

/-- 30_encoding.md sections 1 to 3: no bit of an encoding is dropped, for every command and every operand its fields
admit. -/
def Obligations.EncodedCommandDecodesToItself : Prop :=
  ∀ i : Instr, i.wellFormed = true → decode (encode i) = .ok i

/-- 30_encoding.md sections 1 to 3: the one word of a command is the word it was decoded from, and every decoded operand
fits its field. -/
def Obligations.DecodedWordEncodesBack : Prop :=
  ∀ (w : Word) (i : Instr), decode w = .ok i → i.wellFormed = true ∧ encode i = w

/-- R51: a word is a command exactly when it matches a row of R52, no two rows match one word, and the command is the
row's. -/
def Obligations.WordIsCommandExactlyWhenOneRowMatches : Prop :=
  ∀ w : Word,
    ((∃ i, decode w = .ok i) ↔ ∃ r ∈ opcodeRows, w &&& r.mask = r.pattern) ∧
    (∀ r ∈ opcodeRows, ∀ r' ∈ opcodeRows, w &&& r.mask = r.pattern → w &&& r'.mask = r'.pattern → r = r') ∧
    ∀ i, decode w = .ok i → ∀ r ∈ opcodeRows, w &&& r.mask = r.pattern → r.mnemonic = i.mnemonic

/-- R53: the three cases of a reserved word, and that it is refused: no state changes, no event, no response, the mark
set. -/
def Obligations.ReservedWordsAreRefused : Prop :=
  ∀ w : Word,
    let f := fieldsOf w
    ((∃ e, decode w = .error e) ↔
      7 ≤ f.op.toNat ∨ (f.op = 1 ∧ 5 ≤ f.mode.toNat) ∨
      (f.op ≠ 1 ∧ f.mode ≠ 0) ∨ (f.op ≠ 1 ∧ f.op ≠ 3 ∧ f.v ≠ 0) ∨ (f.op ≠ 5 ∧ f.data ≠ 0) ∨
      (f.op ≠ 1 ∧ f.op ≠ 2 ∧ f.op ≠ 4 ∧ f.op ≠ 5 ∧ f.xa ≠ 0) ∨ (f.op ≠ 1 ∧ f.op ≠ 2 ∧ f.y ≠ 0) ∨ f.rsvd ≠ 0) ∧
    ∀ (s : State) (level : Bool) (rest : List PortInput), s.port = ⟨w, level⟩ :: rest → (∃ e, decode w = .error e) →
      step s = .refused (.reservedEncoding w) ∧
      advance s = { s with refusals := s.refusals ++ [.reservedEncoding w], port := rest } ∧
      (advance s).refusalMark = true

/-- 95_test_vectors.md V25 (section 2.3), V30 and V33 (section 2.4), V40 to V44 (section 2.5), P1 to P3 (section 3): words
written out from the spec's encodings. -/
def Obligations.SpecWordsDecodeAsListed : Prop :=
  decode 0x0000000000000000 = .ok .nop ∧
  decode 0x0000000000000081 = .ok (.writePixelNormal 0 0 true) ∧
  decode 0x0000000000270011 = .ok (.writePixelInverse 39 0 false) ∧
  decode 0x00000005000D00A1 = .ok (.writePixelToggle 13 5 true) ∧
  decode 0x0000000F001F00B1 = .ok (.writePixelOr 31 15 true) ∧
  decode 0x00000000002000C1 = .ok (.writePixelNor 32 0 true) ∧
  decode 0x0000FFFFFFFF0002 = .ok (.readPixel (-1) (-1)) ∧
  decode 0x0000000000000083 = .ok (.fill true) ∧
  decode 0x00000000003F0004 = .ok (.readByte 63) ∧
  decode 0x0000000000303C05 = .ok (.writeByte 48 0x3C) ∧
  decode 0x0000000000000006 = .ok .scanStep ∧
  decode 0x00000002000200D1 = .error (.mode 5) ∧
  decode 0x0000000000000007 = .error (.opcode 7) ∧
  decode 0x0001000000000006 = .error .nonzeroField

/-- R56 and R52: a line the assembler accepts gives the one word of its command, which decodes to it. -/
def Obligations.AssembledLineDecodesToItsCommand : Prop :=
  ∀ (line : AsmLine) (w : Word), line.assemble = some w →
    ∃ i, line.command = some i ∧ i.wellFormed = true ∧ encode i = w ∧ decode w = .ok i

/-- R56: the pseudo-instructions, and the operands the assembler rejects. -/
def Obligations.AssemblerExpandsAndRejects : Prop :=
  (AsmLine.command .clear = some (.fill true) ∧ AsmLine.command .clearLit = some (.fill false)) ∧
  (∀ x y, AsmLine.command (.pset x y) = AsmLine.command (.wpix .normal x y 1) ∧
    AsmLine.command (.pclr x y) = AsmLine.command (.wpix .normal x y 0) ∧
    AsmLine.command (.pflip x y) = AsmLine.command (.wpix .toggle x y 1)) ∧
  (∀ mode x y v, AsmLine.command (.wpix mode x y v) =
    if (-32768 ≤ x ∧ x ≤ 32767) ∧ (-32768 ≤ y ∧ y ≤ 32767) ∧ (v = 0 ∨ v = 1) then
      some (.writePixel mode x y (v == 1)) else none) ∧
  (∀ x y, AsmLine.command (.rpix x y) =
    if (-32768 ≤ x ∧ x ≤ 32767) ∧ (-32768 ≤ y ∧ y ≤ 32767) then some (.readPixel x y) else none) ∧
  (∀ n, AsmLine.command (.fill n) = if n = 0 ∨ n = 1 then some (.fill (n == 1)) else none) ∧
  (∀ a, AsmLine.command (.rbyte a) = if 0 ≤ a ∧ a ≤ 65535 then some (.readByte a.toNat) else none) ∧
  ∀ a d, AsmLine.command (.wbyte a d) =
    if (0 ≤ a ∧ a ≤ 65535) ∧ 0 ≤ d ∧ d ≤ 255 then some (.writeByte a.toNat (BitVec.ofInt 8 d)) else none

/-! ## Steps, refusals, reset -/

/-- R8: when the word presented decodes to a command, the step is that command, run in the state with the command off
the port and `bus_free` at the command's level (A2, A4). -/
def Obligations.StepRunsTheDecodedCommand : Prop :=
  ∀ (s : State) (input : PortInput) (rest : List PortInput) (i : Instr),
    s.port = input :: rest → decode input.word = .ok i →
    step s = exec i { s with port := rest, busFree := input.busFree }

/-- The model's choice A3, for the spec's sentence "The block itself takes no step of its own" (00_scope.md section
3). -/
def Obligations.StepWithoutCommandChangesNothing : Prop :=
  ∀ s : State, s.port = [] → step s = .next s

/-- The model's choices A2 and A4: a word placed by withFetchWord is the command the next step runs, and the level of
`bus_free` that stood in the state before a command is presented reaches no command. -/
def Obligations.PresentedWordRunsNext : Prop :=
  (∀ (s : State) (w : Word) (i : Instr), decode w = .ok i → step (s.withFetchWord 64 w.toNat) = exec i s) ∧
  ∀ (s : State) (level : Bool), s.port ≠ [] → step { s with busFree := level } = step s

/-- R88, R89: exactly when a step is refused, with which reason, and that the refused step leaves everything the run
shows as it was and sets the mark, which stays set. -/
def Obligations.StepRefusesForExactlyTwoReasons : Prop :=
  ∀ (s : State) (r : Refusal),
    (step s = .refused r ↔
      ∃ input rest, s.port = input :: rest ∧
        (((∃ e, decode input.word = .error e) ∧ r = .reservedEncoding input.word) ∨
         ∃ a, (decode input.word = .ok (.readByte a) ∨ ∃ d, decode input.word = .ok (.writeByte a d)) ∧
           s.geom.fbBytes ≤ a ∧ r = .addressOutOfRange a)) ∧
    (step s = .refused r →
      advance s = { s with refusals := s.refusals ++ [r], port := s.port.tail } ∧
      (advance s).observe = s.observe ∧ (advance s).refusalMark = true) ∧
    ∀ k, s.refusalMark = true → (advanceN k s).refusalMark = true

/-- 00_scope.md R10, 60_exceptions.md R88: the premise "no refusal" holds of a run of `k + 1` steps exactly when it
holds of the first step's state before and after it and of the rest: a done step keeps the mark as it was, a refused step
sets it, and no later step clears it. -/
def Obligations.NoRefusalMeansNoRefusedStep : Prop :=
  ∀ s : State,
    ((advance s).noRefusal ↔ s.noRefusal ∧ ∃ t, step s = .next t) ∧
    ∀ k, (advanceN (k + 1) s).noRefusal ↔ (advance s).noRefusal ∧ (advanceN k (advance s)).noRefusal

/-- R10: the two outcomes of a step with a command presented, and no third. A command that decodes and names no address
outside the framebuffer is done: a next state, at most one response, and its events in order. Any other is refused: no
state changes, nothing is emitted, and the mark is set and stays set. -/
def Obligations.EveryCommandIsDoneOrRefused : Prop :=
  ∀ (s : State) (input : PortInput) (rest : List PortInput), s.port = input :: rest →
    let outside := ∃ a, s.geom.fbBytes ≤ a ∧
      (decode input.word = .ok (.readByte a) ∨ ∃ d, decode input.word = .ok (.writeByte a d))
    ((∃ i, decode input.word = .ok i) ∧ ¬outside →
      ∃ (t : State) (response : Option Byte) (es : List Event), step s = .next t ∧
        t.responses = s.responses ++ response.toList ∧ t.events = s.events ++ es ∧ t.refusals = s.refusals) ∧
    ((∃ e, decode input.word = .error e) ∨ outside →
      ∃ r, step s = .refused r ∧
        advance s = { s with refusals := s.refusals ++ [r], port := rest } ∧
        ∀ k, (advanceN k (advance s)).refusalMark = true)

/-- 10_state.md R27, with the configuration carried in State (A1): no step changes it. -/
def Obligations.ConfigurationNeverChanges : Prop :=
  ∀ (k : Nat) (s : State), (advanceN k s).geom = s.geom

/-- R98: the reset state, for every geometry, which is bound at reset and fixed for every run from there. -/
def Obligations.ResetStateIsAsSpecified : Prop :=
  ∀ g : Geometry,
    let s := State.resetWith g
    s.phase = 0 ∧ (∀ a, a < g.fbBytes → s.byte a = 0xFF) ∧ s.rowSel = 0 ∧ s.lineA = false ∧ s.lineB = false ∧
    s.rowOe = false ∧ (∀ row, s.rowLit row = false) ∧ s.latched = none ∧ s.refusalMark = false ∧ s.events = [] ∧
    s.geom = g ∧ ∀ (inputs : List PortInput) (k : Nat), (advanceN k { s with port := inputs }).geom = g

/-- The invariant of the block holds after reset, for every geometry. -/
def Obligations.InvariantHoldsAtReset : Prop := ∀ g : Geometry, (State.resetWith g).Inv

/-- Every step keeps the invariant of the block, from every state that meets it: the framebuffer canonical and inside its
address space (R28), the output stage full (R22), dark until the first bus-free scan (R102), lit and one phase behind
after it (R21, R79, R80), and the output registers driven by the event history (R24). -/
def Obligations.EveryStepKeepsTheInvariant : Prop :=
  ∀ s : State, s.Inv → (∀ t, step s = .next t → t.Inv) ∧ (advance s).Inv

/-! ## Bit-addresser and layout -/

/-- R6, with the bounds of R5: the derived constants. -/
def Obligations.DerivedConstantsAreAsListed : Prop :=
  ∀ g : Geometry,
    g.dt = g.dw * g.dh ∧ Config.bytesPerPanelRow = 4 ∧ g.screenW = 32 * g.dw ∧ g.screenH = 16 * g.dh ∧
    g.stripRowBytes = 4 * g.dt ∧ g.fbBytes = 64 * g.dt ∧ Config.scanPhases = 4 ∧ Config.bandRows = 4 ∧
    g.bytesPerScan = 16 * g.dt ∧ g.fbBytes ≤ 65472

/-- R58: exactly which coordinates are off the screen, and that a pixel command there changes nothing. -/
def Obligations.OffScreenPixelCommandsChangeNothing : Prop :=
  (∀ (g : Geometry) (x y : Int),
    addresser g x y = none ↔ x < 0 ∨ x ≥ 32 * (g.dw : Int) ∨ y < 0 ∨ y ≥ 16 * (g.dh : Int)) ∧
  ∀ (s : State) (x y : Int), addresser s.geom x y = none →
    (∀ mode v, exec (.writePixel mode x y v) s = .next s) ∧
    exec (.readPixel x y) s = .next { s with responses := s.responses ++ [0x00] }

/-- 40_pixel.md section 1, the formula of R57 in integers. -/
def Obligations.AddresserFollowsTheFormula : Prop :=
  ∀ (g : Geometry) (x y : Int), 0 ≤ x → x < 32 * (g.dw : Int) → 0 ≤ y → y < 16 * (g.dh : Int) →
    ∃ a m, addresser g x y = some (a, m) ∧
      (a : Int) = y % 16 * (4 * (g.dw * g.dh)) + (x / 32 + g.dw * (y / 16)) * 4 + x % 32 / 8 ∧
      m = (0x80 : Byte) >>> (x % 32 % 8).toNat

/-- The spec derives from R6 and R30 that the bit-addresser is a bijection between the pixels of the screen and the bits
of the framebuffer (40_pixel.md section 1). -/
def Obligations.EveryFramebufferBitIsOnePixel : Prop :=
  ∀ g : Geometry,
    (∀ x y a m, addresser g x y = some (a, m) → a < g.fbBytes ∧ ∃ c, c < 8 ∧ m = (0x80 : Byte) >>> c) ∧
    ∀ a c, a < g.fbBytes → c < 8 →
      ∃ p : Int × Int, addresser g p.1 p.2 = some (a, (0x80 : Byte) >>> c) ∧
        ∀ x y, addresser g x y = some (a, (0x80 : Byte) >>> c) → (x, y) = p

/-- R30: the strip-row interleaved layout and its inverse. -/
def Obligations.LayoutAndItsInverse : Prop :=
  ∀ g : Geometry,
    (∀ panel lx ly, panel < g.dt → lx < 32 → ly < 16 →
      let a := byteOf g panel lx ly
      a = ly * (4 * g.dt) + 4 * panel + lx / 8 ∧ a < g.fbBytes ∧
      a / g.stripRowBytes = ly ∧ a % g.stripRowBytes / 4 = panel ∧ 8 * (a % 4) + lx % 8 = lx) ∧
    ∀ a c, a < g.fbBytes → c < 8 →
      addresser g (pixelAt g a c).1 (pixelAt g a c).2 = some (a, (0x80 : Byte) >>> c)

/-- The spec derives from R57 and R58 that the bit-addresser may be computed with shifts and bit fields (40_pixel.md
section 1, R59). -/
def Obligations.AddresserByShiftsAgrees : Prop :=
  ∀ (g : Geometry) (x y : BitVec 16), addresserByShifts g x y = addresser g x.toInt y.toInt

/-- 95_test_vectors.md V1 to V9 and the multi-panel table of 40_pixel.md. -/
def Obligations.AddresserVectors : Prop :=
  ∀ g : Geometry,
    (g.dw = 1 ∧ g.dh = 1 → addresser g 0 0 = some (0, 0x80) ∧ addresser g 13 5 = some (21, 0x04) ∧
      addresser g 31 15 = some (63, 0x01) ∧ addresser g 32 0 = none ∧ addresser g 0 16 = none) ∧
    (g.dw = 2 ∧ g.dh = 2 → addresser g 31 0 = some (3, 0x01) ∧ addresser g 32 0 = some (4, 0x80) ∧
      addresser g 0 15 = some (240, 0x80) ∧ addresser g 0 16 = some (8, 0x80) ∧ addresser g 63 31 = some (255, 0x01) ∧
      addresser g 40 20 = some (77, 0x80) ∧ addresser g 64 0 = none ∧ addresser g 0 32 = none) ∧
    (g.dw = 3 ∧ g.dh = 1 → addresser g 70 9 = some (116, 0x02)) ∧
    (g.dw = 1 ∧ g.dh = 3 → addresser g 5 40 = some (104, 0x04)) ∧
    addresser g (-1) 0 = none ∧ addresser g 0 (-1) = none ∧ addresser g 0 (-32768) = none

/-! ## The pixel composition mux and READ_PIXEL -/

/-- R61: WRITE_PIXEL.NORMAL, from its encoding to its effect; off the screen nothing changes; idempotent. The rule's
remark that no other mode both lights and unlights is A17. -/
def Obligations.WritePixelNormalLightsOrUnlights : Prop :=
  (∀ w : Word, w &&& 0xFFFF00000000FF7F = 0x0000000000000001 →
    decode w = .ok (.writePixelNormal (w.extractLsb' 16 16).toInt (w.extractLsb' 32 16).toInt (w.getLsbD 7))) ∧
  ∀ (s : State) (x y : Int) (v : Bool),
    (addresser s.geom x y = none → exec (.writePixelNormal x y v) s = .next s) ∧
    (∀ a m, addresser s.geom x y = some (a, m) →
      StoresByte (exec (.writePixelNormal x y v) s) s a (if v then s.byte a &&& ~~~m else s.byte a ||| m)) ∧
    (s.fb.wf = true → ∀ t, exec (.writePixelNormal x y v) s = .next t → exec (.writePixelNormal x y v) t = .next t)

/-- R62: WRITE_PIXEL.INVERSE, from its encoding to its effect; off the screen nothing changes; idempotent. -/
def Obligations.WritePixelInverseUnlightsOrLights : Prop :=
  (∀ w : Word, w &&& 0xFFFF00000000FF7F = 0x0000000000000011 →
    decode w = .ok (.writePixelInverse (w.extractLsb' 16 16).toInt (w.extractLsb' 32 16).toInt (w.getLsbD 7))) ∧
  ∀ (s : State) (x y : Int) (v : Bool),
    (addresser s.geom x y = none → exec (.writePixelInverse x y v) s = .next s) ∧
    (∀ a m, addresser s.geom x y = some (a, m) →
      StoresByte (exec (.writePixelInverse x y v) s) s a (if v then s.byte a ||| m else s.byte a &&& ~~~m)) ∧
    (s.fb.wf = true → ∀ t, exec (.writePixelInverse x y v) s = .next t → exec (.writePixelInverse x y v) t = .next t)

/-- R63: WRITE_PIXEL.TOGGLE, from its encoding to its effect, in both spellings of the rule; off the screen nothing
changes; two toggles restore the framebuffer. -/
def Obligations.WritePixelToggleInverts : Prop :=
  (∀ w : Word, w &&& 0xFFFF00000000FF7F = 0x0000000000000021 →
    decode w = .ok (.writePixelToggle (w.extractLsb' 16 16).toInt (w.extractLsb' 32 16).toInt (w.getLsbD 7))) ∧
  ∀ (s : State) (x y : Int) (v : Bool),
    (addresser s.geom x y = none → exec (.writePixelToggle x y v) s = .next s) ∧
    (∀ a m, addresser s.geom x y = some (a, m) →
      StoresByte (exec (.writePixelToggle x y v) s) s a (if v then s.byte a ^^^ m else s.byte a) ∧
      s.byte a ^^^ m = (if s.byte a &&& m = 0 then s.byte a ||| m else s.byte a &&& ~~~m) ∧ s.byte a ^^^ m ≠ s.byte a) ∧
    (s.fb.wf = true → execAll [.writePixelToggle x y v, .writePixelToggle x y v] s = .next s)

/-- R64: WRITE_PIXEL.OR, from its encoding to its effect; off the screen nothing changes; idempotent, and no pixel is
unlit by it. -/
def Obligations.WritePixelOrOnlyLights : Prop :=
  (∀ w : Word, w &&& 0xFFFF00000000FF7F = 0x0000000000000031 →
    decode w = .ok (.writePixelOr (w.extractLsb' 16 16).toInt (w.extractLsb' 32 16).toInt (w.getLsbD 7))) ∧
  ∀ (s : State) (x y : Int) (v : Bool),
    (addresser s.geom x y = none → exec (.writePixelOr x y v) s = .next s) ∧
    (∀ a m, addresser s.geom x y = some (a, m) →
      StoresByte (exec (.writePixelOr x y v) s) s a (if v then s.byte a &&& ~~~m else s.byte a)) ∧
    (s.fb.wf = true → ∀ t, exec (.writePixelOr x y v) s = .next t → exec (.writePixelOr x y v) t = .next t ∧
      ∀ x' y', pixelBit t x' y' = some true → pixelBit s x' y' = some true)

/-- R65: WRITE_PIXEL.NOR, from its encoding to its effect, in both spellings of the rule; off the screen nothing
changes; idempotent, and no pixel is lit by it. -/
def Obligations.WritePixelNorOnlyUnlights : Prop :=
  (∀ w : Word, w &&& 0xFFFF00000000FF7F = 0x0000000000000041 →
    decode w = .ok (.writePixelNor (w.extractLsb' 16 16).toInt (w.extractLsb' 32 16).toInt (w.getLsbD 7))) ∧
  ∀ (s : State) (x y : Int) (v : Bool),
    (addresser s.geom x y = none → exec (.writePixelNor x y v) s = .next s) ∧
    (∀ a m, addresser s.geom x y = some (a, m) →
      StoresByte (exec (.writePixelNor x y v) s) s a (if v then s.byte a ||| m else s.byte a) ∧
      (if v = true ∧ s.byte a &&& m = 0 then s.byte a ||| m else s.byte a) =
        if v then s.byte a ||| m else s.byte a) ∧
    (s.fb.wf = true → ∀ t, exec (.writePixelNor x y v) s = .next t → exec (.writePixelNor x y v) t = .next t ∧
      ∀ x' y', pixelBit t x' y' = some false → pixelBit s x' y' = some false)

/-- The spec derives from R61 to R65 (40_pixel.md R66 (a), (b); source property S2): a pixel write gives its pixel the
stored bit of the truth table and leaves every other pixel of the screen as it was; a following READ_PIXEL shows it. -/
def Obligations.PixelWriteChangesExactlyItsPixel : Prop :=
  ∀ (s : State) (mode : Mode) (x y : Int) (v existing : Bool), s.fb.wf = true → pixelBit s x y = some existing →
    ∃ t, exec (.writePixel mode x y v) s = .next t ∧ t.fb.wf = true ∧
      pixelBit t x y = some (truthTable mode v existing) ∧
      (∀ x' y', (x', y') ≠ (x, y) → pixelBit t x' y' = pixelBit s x' y') ∧
      exec (.readPixel x y) t =
        .next { t with responses := t.responses ++ [if truthTable mode v existing then 0x03 else 0x01] }

/-- The spec derives from R61 to R65 (40_pixel.md R66 (c)): a pixel write done twice is done once, except TOGGLE with
`v = 1`, which is undone by a second one. -/
def Obligations.PixelWriteTwiceIsOnceExceptToggle : Prop :=
  ∀ (s : State) (x y : Int), s.fb.wf = true →
    (∀ mode v, (mode, v) ≠ (.toggle, true) → ∀ t, exec (.writePixel mode x y v) s = .next t →
      exec (.writePixel mode x y v) t = .next t) ∧
    execAll [.writePixelToggle x y true, .writePixelToggle x y true] s = .next s

/-- The spec derives from R61 to R65 (40_pixel.md R66 (d)): the modes' equal functions, and the identities. -/
def Obligations.ModesThatAreEqualFunctions : Prop :=
  ∀ (s : State) (x y : Int), s.fb.wf = true →
    exec (.writePixelNor x y true) s = exec (.writePixelInverse x y true) s ∧
    exec (.writePixelInverse x y true) s = exec (.writePixelNormal x y false) s ∧
    exec (.writePixelOr x y true) s = exec (.writePixelNormal x y true) s ∧
    exec (.writePixelNormal x y true) s = exec (.writePixelInverse x y false) s ∧
    exec (.writePixelToggle x y false) s = .next s ∧ exec (.writePixelOr x y false) s = .next s ∧
    exec (.writePixelNor x y false) s = .next s

/-- R67: READ_PIXEL, from its encoding to its response; it changes nothing else, and it answers off the screen too. -/
def Obligations.ReadPixelRespondsValidAndBit : Prop :=
  (∀ w : Word, w &&& 0xFFFF00000000FFFF = 0x0000000000000002 →
    decode w = .ok (.readPixel (w.extractLsb' 16 16).toInt (w.extractLsb' 32 16).toInt)) ∧
  ∀ (s : State) (x y : Int),
    (addresser s.geom x y = none →
      exec (.readPixel x y) s = .next { s with responses := s.responses ++ [0x00] }) ∧
    ∀ a m, addresser s.geom x y = some (a, m) →
      exec (.readPixel x y) s =
        .next { s with responses := s.responses ++ [if s.byte a &&& m ≠ 0 then 0x03 else 0x01] }

/-- R50: only the two reads respond, each with one byte: READ_PIXEL's VALID in bit 0 and BIT in bit 1, READ_BYTE's the
stored byte. -/
def Obligations.OnlyTheReadsRespond : Prop :=
  ∀ (i : Instr) (s t : State), exec i s = .next t →
    (∀ x y, i = .readPixel x y → ∃ r : Byte, t.responses = s.responses ++ [r] ∧
      r.getLsbD 0 = (addresser s.geom x y).isSome ∧ r.getLsbD 1 = ((pixelBit s x y).getD false) ∧ r >>> 2 = 0) ∧
    (∀ a, i = .readByte a → t.responses = s.responses ++ [s.byte a]) ∧
    ((∀ x y, i ≠ .readPixel x y) → (∀ a, i ≠ .readByte a) → t.responses = s.responses)

/-! ## Whole-framebuffer and byte commands -/

/-- R69: NOP, from its encoding to its effect. -/
def Obligations.NopDoesNothing : Prop :=
  (∀ w : Word, w &&& 0xFFFFFFFFFFFFFFFF = 0x0000000000000000 → decode w = .ok .nop) ∧
  ∀ s : State, exec .nop s = .next s

/-- R70: FILL, from its encoding to its effect: every byte `0xFF` for `normal = 1`, `0x00` for `normal = 0`, and nothing
else. -/
def Obligations.FillWritesEveryByte : Prop :=
  (∀ w : Word, w &&& 0xFFFFFFFFFFFFFF7F = 0x0000000000000003 → decode w = .ok (.fill (w.getLsbD 7))) ∧
  ∀ (s : State) (normal : Bool),
    ∃ fb, exec (.fill normal) s = .next { s with fb := fb } ∧ fb.wf = true ∧
      ∀ a, a < s.geom.fbBytes → fb.read a = if normal then 0xFF else 0x00

/-- R71: the address check of the byte commands, and that the refused command leaves everything as it was. -/
def Obligations.ByteCommandsRefuseOutsideTheFramebuffer : Prop :=
  ∀ (i : Instr) (a : Nat), (i = .readByte a ∨ ∃ d, i = .writeByte a d) →
    (∀ (s : State) (r : Refusal), exec i s = .refused r ↔ s.geom.fbBytes ≤ a ∧ r = .addressOutOfRange a) ∧
    ∀ (s : State) (input : PortInput) (rest : List PortInput),
      s.port = input :: rest → decode input.word = .ok i → s.geom.fbBytes ≤ a →
      advance s = { s with refusals := s.refusals ++ [.addressOutOfRange a], port := rest }

/-- R72: READ_BYTE, from its encoding to its response; it changes nothing else. -/
def Obligations.ReadByteRespondsTheStoredByte : Prop :=
  (∀ w : Word, w &&& 0xFFFFFFFF0000FFFF = 0x0000000000000004 →
    decode w = .ok (.readByte (w.extractLsb' 16 16).toNat)) ∧
  ∀ (s : State) (a : Nat),
    (a < s.geom.fbBytes → exec (.readByte a) s = .next { s with responses := s.responses ++ [s.byte a] }) ∧
    (s.geom.fbBytes ≤ a → exec (.readByte a) s = .refused (.addressOutOfRange a))

/-- R73: WRITE_BYTE, from its encoding to its effect: the byte at the address and nothing else; idempotent. -/
def Obligations.WriteByteStoresTheData : Prop :=
  (∀ w : Word, w &&& 0xFFFFFFFF000000FF = 0x0000000000000005 →
    decode w = .ok (.writeByte (w.extractLsb' 16 16).toNat (w.extractLsb' 8 8))) ∧
  ∀ (s : State) (a : Nat) (d : Byte),
    (a < s.geom.fbBytes → StoresByte (exec (.writeByte a d) s) s a d ∧
      (s.fb.wf = true → execAll [.writeByte a d, .writeByte a d] s = exec (.writeByte a d) s)) ∧
    (s.geom.fbBytes ≤ a → exec (.writeByte a d) s = .refused (.addressOutOfRange a))

/-- The spec derives from R57, R61, R67, R72 and R73 that the byte view and the pixel view agree (41_framebuffer.md
R74). -/
def Obligations.ByteAndPixelViewsAgree : Prop :=
  ∀ (s : State) (x y : Int) (a : Nat) (m : Byte), addresser s.geom x y = some (a, m) →
    (∃ r : Byte, exec (.readByte a) s = .next { s with responses := s.responses ++ [r] } ∧
      pixelBit s x y = some (decide (r &&& m ≠ 0))) ∧
    exec (.writePixelNormal x y true) s = exec (.writeByte a (s.byte a &&& ~~~m)) s ∧
    exec (.writePixelNormal x y false) s = exec (.writeByte a (s.byte a ||| m)) s

/-- The spec derives (41_framebuffer.md R74) that FILL is the same as a WRITE_BYTE of the fill byte at every address. -/
def Obligations.FillEqualsWritingEveryByte : Prop :=
  ∀ (s : State) (normal : Bool), s.fb.wf = true → s.fb.below s.geom.fbBytes = true →
    execAll ((List.range s.geom.fbBytes).map fun a => .writeByte a (if normal then 0xFF else 0x00)) s =
      exec (.fill normal) s

/-- 20_memory.md section 5 (R38) and 70_reset_and_hazards.md section 3 (R107): a read after a write sees it, and sees
every other byte as it was. -/
def Obligations.ReadAfterWriteSeesTheWrite : Prop :=
  ∀ (s : State) (a a' : Nat) (d : Byte), s.fb.wf = true → a < s.geom.fbBytes → a' < s.geom.fbBytes →
    ∃ t, exec (.writeByte a d) s = .next t ∧
      exec (.readByte a') t = .next { t with responses := t.responses ++ [if a' = a then d else s.byte a'] }

/-- The spec derives (20_memory.md R35) which commands have side effects and which are idempotent: the reads change
nothing but the response, FILL and WRITE_BYTE done twice are done once, TOGGLE with `v = 1` on the screen and a bus-free
SCAN_STEP are not. -/
def Obligations.SideEffectsAndIdempotence : Prop :=
  ∀ s : State,
    (∀ i t, (∃ x y, i = .readPixel x y) ∨ (∃ a, i = .readByte a) → exec i s = .next t →
      t = { s with responses := t.responses }) ∧
    (∀ normal t, exec (.fill normal) s = .next t → exec (.fill normal) t = .next t) ∧
    (∀ a d t, s.fb.wf = true → exec (.writeByte a d) s = .next t → exec (.writeByte a d) t = .next t) ∧
    (∀ x y t, s.fb.wf = true → (addresser s.geom x y).isSome = true → exec (.writePixelToggle x y true) s = .next t →
      exec (.writePixelToggle x y true) t ≠ .next t) ∧
    (s.busFree = true → ∀ t, exec .scanStep s = .next t → exec .scanStep t ≠ .next t)

/-! ## Row-scan multiplexer and shift-chain serializer -/

/-- R75: a SCAN_STEP that finds the bus busy is a complete no-op, whatever the state. -/
def Obligations.BusyBusSkipsTheScan : Prop :=
  ∀ s : State, s.busFree = false → exec .scanStep s = .next s

/-- The model's choice A4, for R75's "samples the `bus_free` input once, at the start of the step": the level comes with
the command, and with a busy bus the step leaves everything the run shows as it was. -/
def Obligations.BusLevelComesWithTheCommand : Prop :=
  ∀ (s : State) (level : Bool) (rest : List PortInput), s.port = ⟨0x0000000000000006, level⟩ :: rest →
    step s = exec .scanStep { s with port := rest, busFree := level } ∧
    (level = false → step s = .next { s with port := rest, busFree := false } ∧ (advance s).observe = s.observe)

/-- R76: SCAN_STEP, from its encoding to everything it changes when the bus is free: the bytes in the order of the two
loops, then the output disabled, the latch, the row select and the output enabled, and last the cursor. -/
def Obligations.FreeBusScansOneRowGroup : Prop :=
  (∀ w : Word, w &&& 0xFFFFFFFFFFFFFFFF = 0x0000000000000006 → decode w = .ok .scanStep) ∧
  ∀ s : State,
    (s.busFree = false → exec .scanStep s = .next s) ∧
    (s.busFree = true →
      let bytes := (List.range (4 * s.geom.dt)).flatMap fun i =>
        [s.byte ((s.phase.toNat + 12) * (4 * s.geom.dt) + i), s.byte ((s.phase.toNat + 8) * (4 * s.geom.dt) + i),
         s.byte ((s.phase.toNat + 4) * (4 * s.geom.dt) + i), s.byte (s.phase.toNat * (4 * s.geom.dt) + i)]
      exec .scanStep s = .next { s with
        phase := BitVec.ofNat 2 ((s.phase.toNat + 1) % 4), rowSel := s.phase, rowOe := true, latched := some bytes,
        events := s.events ++ bytes.map .tx ++ [.oe false, .latch, .rowSel s.phase, .oe true] })

/-- The spec derives from R76 (42_scan.md R78) how many bytes a scan step sends, which is the j-th, and that every byte
of the four strip rows `p, p+4, p+8, p+12` is sent exactly once. -/
def Obligations.ScanSendsEachByteOfItsRowsOnce : Prop :=
  ∀ s : State,
    (scanBytes s).length = 16 * s.geom.dt ∧
    (∀ j, j < 16 * s.geom.dt →
      (scanAddrs s.geom s.phase)[j]? = some ((s.phase.toNat + 4 * (3 - j % 4)) * s.geom.stripRowBytes + j / 4) ∧
      (scanBytes s)[j]? = some (s.byte ((s.phase.toNat + 4 * (3 - j % 4)) * s.geom.stripRowBytes + j / 4))) ∧
    (scanAddrs s.geom s.phase).Nodup ∧
    ∀ a, a ∈ scanAddrs s.geom s.phase ↔ a < s.geom.fbBytes ∧ a / s.geom.stripRowBytes % 4 = s.phase.toNat

/-- R79: a bus-free scan step selects the group it has just shifted and latched, on lines A and B. Beside it, of R80:
the cursor advances by one of four, and a skipped step and every other command leave it. -/
def Obligations.ScanSelectsTheShiftedGroupAndAdvances : Prop :=
  (∀ s : State, s.busFree = true → ∃ t, exec .scanStep s = .next t ∧
    t.rowSel = s.phase ∧ t.lineA = s.phase.getLsbD 0 ∧ t.lineB = s.phase.getLsbD 1 ∧
    t.latched = some ((scanAddrs s.geom s.phase).map s.byte) ∧
    (∀ a ∈ scanAddrs s.geom s.phase, a / s.geom.stripRowBytes ∈ rowGroup t.rowSel) ∧
    t.phase.toNat = (s.phase.toNat + 1) % 4) ∧
  ∀ (i : Instr) (s t : State), exec i s = .next t → ¬(i = .scanStep ∧ s.busFree = true) → t.phase = s.phase

/-- 10_state.md sections 2 and 3 (R18, R20 to R23, R26), with 42_scan.md R81's "stays so until the next such SCAN_STEP":
no command but a bus-free SCAN_STEP changes the cursor or an output register or emits an event. -/
def Obligations.OnlyABusFreeScanTouchesTheOutputs : Prop :=
  ∀ (i : Instr) (s t : State), exec i s = .next t → ¬(i = .scanStep ∧ s.busFree = true) →
    t.phase = s.phase ∧ t.rowSel = s.rowSel ∧ t.rowOe = s.rowOe ∧ t.latched = s.latched ∧ t.events = s.events

/-- 10_state.md section 2 (the columns "written by"): only WRITE_PIXEL, FILL and WRITE_BYTE change the framebuffer; no
command changes the configuration, the refusal record or the inputs (the last three A1, A2, A4, A5). -/
def Obligations.OnlyTheWritesTouchTheFramebuffer : Prop :=
  ∀ (i : Instr) (s t : State), exec i s = .next t →
    (i = .nop ∨ (∃ x y, i = .readPixel x y) ∨ (∃ a, i = .readByte a) ∨ i = .scanStep → t.fb = s.fb) ∧
    t.geom = s.geom ∧ t.refusals = s.refusals ∧ t.busFree = s.busFree ∧ t.port = s.port

/-- R24: every command's output registers are what its events drive, the latched bytes being those transmitted in the
same step, in order. -/
def Obligations.EventsDriveTheOutputRegisters : Prop :=
  ∀ (i : Instr) (s t : State), exec i s = .next t →
    ∃ es, t.events = s.events ++ es ∧ s.panel.after es = t.panel

/-- R77: which local rows are lit, and from which bytes. -/
def Obligations.LitRowsAreTheSelectedGroup : Prop :=
  ∀ s : State,
    (∀ row, row < 16 → (s.rowLit row = true ↔ s.rowOe = true ∧ row % 4 = s.rowSel.toNat)) ∧
    (∀ row, 16 ≤ row → s.rowLit row = false) ∧
    (s.rowOe = true → s.drivenBytes = s.latched) ∧ (s.rowOe = false → s.drivenBytes = none)

/-- The spec derives from R76, R79 and R80 (42_scan.md R82) the four-step round, with skipped steps anywhere: whatever
the levels of `bus_free`, if four of them are free, every row group is selected once in order, the cursor returns, every
framebuffer byte is sent exactly once, and a fifth step selects the first group again. -/
def Obligations.FourFreeScansMakeARound : Prop :=
  ∀ (s : State) (levels : List Bool), levels.count true = 4 →
    ∃ (t : State) (es : List Event) (addrs : List Nat),
      scanRun levels s = .next t ∧ t.fb = s.fb ∧ t.phase = s.phase ∧ t.events = s.events ++ es ∧
      (es.filterMap fun e => match e with | .rowSel g => some g | _ => none) =
        [s.phase, s.phase + 1, s.phase + 2, s.phase + 3] ∧
      (es.filterMap fun e => match e with | .tx b => some b | _ => none) = addrs.map s.byte ∧
      addrs.Perm (List.range s.geom.fbBytes) ∧
      ∃ u, exec .scanStep { t with busFree := true } = .next u ∧ u.rowSel = s.phase

/-- 70_reset_and_hazards.md section 3 (R107; the spec derives it): a scan after a write transmits the written byte. -/
def Obligations.ScanAfterWriteTransmitsTheWrite : Prop :=
  ∀ (s : State) (a : Nat) (d : Byte), s.fb.wf = true → s.busFree = true → a < s.geom.fbBytes →
    a / s.geom.stripRowBytes % 4 = s.phase.toNat →
    ∃ (t u : State) (bytes : List Byte) (j : Nat),
      exec (.writeByte a d) s = .next t ∧ exec .scanStep t = .next u ∧ u.latched = some bytes ∧
      (scanAddrs s.geom s.phase)[j]? = some a ∧ bytes[j]? = some d

/-- The spec derives from R98 and R76 (70_reset_and_hazards.md R102): no row is lit before the first bus-free scan, which
lights row group 0 with strip rows 0, 4, 8 and 12. -/
def Obligations.DarkUntilTheFirstFreeScan : Prop :=
  ∀ s : State, s.Inv → s.latched = none →
    (∀ row, s.rowLit row = false) ∧
    (s.busFree = true → ∃ t, exec .scanStep s = .next t ∧
      (∀ row, t.rowLit row = true ↔ row = 0 ∨ row = 4 ∨ row = 8 ∨ row = 12) ∧
      t.latched = some ((List.range (4 * s.geom.dt)).flatMap fun i =>
        [s.byte (12 * (4 * s.geom.dt) + i), s.byte (8 * (4 * s.geom.dt) + i), s.byte (4 * (4 * s.geom.dt) + i),
         s.byte i]))

/-- 10_state.md section 2 (the columns "read by"): the output registers are read by no command, and the cursor and
`bus_free` by SCAN_STEP alone. -/
def Obligations.OutputRegistersAreReadByNoCommand : Prop :=
  ∀ (i : Instr) (s t : State), exec i s = .next t → ∀ (g : BitVec 2) (e : Bool) (stage : Option (List Byte)),
    (∃ t', exec i { s with rowSel := g, rowOe := e, latched := stage } = .next t' ∧
      t'.fb = t.fb ∧ t'.phase = t.phase ∧ t'.responses = t.responses ∧ t'.events = t.events) ∧
    (i ≠ .scanStep → ∀ (p : BitVec 2) (level : Bool),
      exec i { s with phase := p, busFree := level } = .next { t with phase := p, busFree := level })
end

