-- ==== Sys2Proof/Laws/Geometry.lean ====
section
/-! SUPPORT. The derived constants as the numbers R6 gives them. -/

namespace Sys2Proof

@[simp] theorem Config.panelW_eq : Config.panelW = 32 := rfl

@[simp] theorem Config.panelH_eq : Config.panelH = 16 := rfl

@[simp] theorem Config.bytesPerPanelRow_eq : Config.bytesPerPanelRow = 4 := rfl

@[simp] theorem Config.bandRows_eq : Config.bandRows = 4 := rfl

theorem Geometry.screenW_eq (g : Geometry) : g.screenW = 32 * g.dw := rfl

theorem Geometry.screenH_eq (g : Geometry) : g.screenH = 16 * g.dh := rfl

theorem Geometry.dt_eq (g : Geometry) : g.dt = g.dw * g.dh := rfl

theorem Geometry.stripRowBytes_eq (g : Geometry) : g.stripRowBytes = 4 * g.dt := Nat.mul_comm _ _

theorem Geometry.fbBytes_eq (g : Geometry) : g.fbBytes = 64 * g.dt := by
  show g.dt * 4 * 16 = 64 * g.dt
  omega

theorem Geometry.bytesPerScan_eq (g : Geometry) : g.bytesPerScan = 16 * g.dt := by
  show g.dt * 4 * 4 = 16 * g.dt
  omega

theorem Geometry.fbBytes_eq_rows (g : Geometry) : g.fbBytes = 16 * g.stripRowBytes := by
  rw [Geometry.fbBytes_eq, Geometry.stripRowBytes_eq]
  omega

theorem Geometry.dt_pos (g : Geometry) : 0 < g.dt := Nat.mul_pos g.dw_pos g.dh_pos

theorem Geometry.stripRowBytes_pos (g : Geometry) : 0 < g.stripRowBytes := by
  have := g.dt_pos
  rw [Geometry.stripRowBytes_eq]
  omega

/-- Every byte address fits 16 bits (R5, R28). -/
theorem Geometry.fbBytes_le (g : Geometry) : g.fbBytes ≤ 65472 := by
  have := g.dt_le
  rw [Geometry.fbBytes_eq, Geometry.dt_eq]
  omega

/-- Every panel column and row of the screen has its panel among the `DT` (R57). -/
theorem Geometry.panel_lt (g : Geometry) {px py : Nat} (hx : px < g.dw) (hy : py < g.dh) : px + g.dw * py < g.dt := by
  have : g.dw * (py + 1) ≤ g.dw * g.dh := Nat.mul_le_mul_left _ hy
  rw [Geometry.dt_eq]
  rw [Nat.mul_add] at this
  omega

end Sys2Proof
end

