-- ==== Sys2Proof/Laws/Addresser.lean ====
section
/-! SUPPORT. What the bit-addresser answers (R57, R58). -/

namespace Sys2Proof.Machine

theorem onScreen_iff (g : Geometry) (x y : Int) :
    onScreen g x y = true ↔ (0 ≤ x ∧ x < 32 * (g.dw : Int)) ∧ 0 ≤ y ∧ y < 16 * (g.dh : Int) := by
  simp [onScreen, Geometry.screenW_eq, Geometry.screenH_eq, and_assoc]

/-- The two cases of the bit-addresser. -/
theorem addresser_cases (g : Geometry) (x y : Int) :
    (onScreen g x y = false ∧ addresser g x y = none) ∨
      (onScreen g x y = true ∧ addresser g x y = some (locate g x.toNat y.toNat)) := by
  unfold addresser
  cases h : onScreen g x y <;> simp

theorem addresser_eq_none_iff (g : Geometry) (x y : Int) : addresser g x y = none ↔ onScreen g x y = false := by
  rcases addresser_cases g x y with ⟨h, ha⟩ | ⟨h, ha⟩ <;> simp [h, ha]

/-- A local row and panel of the display have their byte below `FB_BYTES` (R57). -/
theorem byteOf_lt (g : Geometry) {panel lx ly : Nat} (hp : panel < g.dt) (hx : lx < 32) (hy : ly < 16) :
    byteOf g panel lx ly < g.fbBytes := by
  have h1 : ly * g.stripRowBytes ≤ 15 * g.stripRowBytes := Nat.mul_le_mul_right _ (by omega)
  have h2 := g.stripRowBytes_eq
  have h3 := g.fbBytes_eq
  show ly * g.stripRowBytes + panel * 4 + lx / 8 < g.fbBytes
  omega

/-- A pixel of the screen has its byte inside the framebuffer (R57). -/
theorem locate_lt (g : Geometry) {x y : Nat} (hx : x < 32 * g.dw) (hy : y < 16 * g.dh) :
    (locate g x y).1 < g.fbBytes := by
  have hp : panelOf g x y < g.dt :=
    g.panel_lt (Nat.div_lt_of_lt_mul hx) (Nat.div_lt_of_lt_mul hy)
  exact byteOf_lt g hp (Nat.mod_lt _ (by decide)) (Nat.mod_lt _ (by decide))

/-- The address the bit-addresser gives is inside the framebuffer (R57). -/
theorem addresser_lt {g : Geometry} {x y : Int} {a : Nat} {m : Byte} (h : addresser g x y = some (a, m)) :
    a < g.fbBytes := by
  rcases addresser_cases g x y with ⟨-, ha⟩ | ⟨hs, ha⟩
  · simp [ha] at h
  · rw [onScreen_iff] at hs
    have hlt := locate_lt g (x := x.toNat) (y := y.toNat) (by omega) (by omega)
    rw [h] at ha
    rw [← Option.some.inj ha] at hlt
    exact hlt

end Sys2Proof.Machine
end

