-- ==== Sys2Proof/Laws/Decode.lean ====
section
/-! SUPPORT. A word and its fields determine each other (R42). -/

namespace Sys2Proof

/-- A bit of a word made of fields: the bit of the field it falls in (R42). -/
theorem getLsbD_wordOf (f : Fields) (i : Nat) :
    (wordOf f).getLsbD i =
      if i < 4 then f.op.getLsbD i else if i < 7 then f.mode.getLsbD (i - 4) else if i < 8 then f.v.getLsbD (i - 7)
      else if i < 16 then f.data.getLsbD (i - 8) else if i < 32 then f.xa.getLsbD (i - 16)
      else if i < 48 then f.y.getLsbD (i - 32) else f.rsvd.getLsbD (i - 48) := by
  show BitVec.getLsbD (w := 16 + 16 + 16 + 8 + 1 + 3 + 4) _ i = _
  simp only [BitVec.getLsbD_append, wordOf, Nat.sub_sub]
  split_ifs <;> first | rfl | omega

/-- The fields of a word made of fields are those fields: no bit of a field is dropped. -/
theorem fieldsOf_wordOf (f : Fields) : fieldsOf (wordOf f) = f := by
  obtain ⟨op, mode, v, data, xa, y, rsvd⟩ := f
  simp only [fieldsOf, Fields.mk.injEq]
  refine ⟨?_, ?_, ?_, ?_, ?_, ?_, ?_⟩ <;>
  · ext i hi
    simp only [BitVec.getElem_extractLsb', getLsbD_wordOf, Nat.add_sub_cancel_left, Nat.zero_add]
    split_ifs <;> first | exact BitVec.getLsbD_eq_getElem _ | omega

/-- A word is made of its fields: every bit of the word lies in one. -/
theorem wordOf_fieldsOf (w : Word) : wordOf (fieldsOf w) = w := by
  ext i hi
  rw [← BitVec.getLsbD_eq_getElem, getLsbD_wordOf, ← BitVec.getLsbD_eq_getElem]
  simp only [fieldsOf, BitVec.getLsbD_extractLsb']
  split_ifs <;> (rw [decide_eq_true (by omega), Bool.true_and]; congr 1; omega)

theorem wordOf_inj {f f' : Fields} : wordOf f = wordOf f' ↔ f = f' :=
  ⟨fun h => by rw [← fieldsOf_wordOf f, h, fieldsOf_wordOf], fun h => h ▸ rfl⟩

/-- Field by field conjunction: what a mask does to a word, seen by fields. -/
def Fields.and (f m : Fields) : Fields :=
  ⟨f.op &&& m.op, f.mode &&& m.mode, f.v &&& m.v, f.data &&& m.data, f.xa &&& m.xa, f.y &&& m.y, f.rsvd &&& m.rsvd⟩

theorem wordOf_and (f m : Fields) : wordOf (f.and m) = wordOf f &&& wordOf m := by
  ext i hi
  rw [BitVec.getElem_and, ← BitVec.getLsbD_eq_getElem, ← BitVec.getLsbD_eq_getElem, ← BitVec.getLsbD_eq_getElem,
    getLsbD_wordOf, getLsbD_wordOf, getLsbD_wordOf]
  simp only [Fields.and, BitVec.getLsbD_and]
  split_ifs <;> rfl

/-- A row whose pattern and mask are given by fields, on a word given by fields. -/
theorem fits_wordOf (name : String) (p m f : Fields) :
    (OpcodeRow.mk name (wordOf p) (wordOf m)).fits (wordOf f) = decide (f.and m = p) := by
  simp only [OpcodeRow.fits, ← wordOf_and]
  by_cases h : f.and m = p
  · simp [h]
  · simp [h, wordOf_inj]

end Sys2Proof
end

