-- ==== Sys2Proof/Laws/Memory.lean ====
section
/-! SUPPORT. The laws of the memory operations: read after write, the canonical form and the bound are kept, and
canonical memories that read alike are equal. -/

namespace Sys2Proof.Machine

theorem Memory.read_nil (a : Nat) : Memory.read [] a = Memory.unlisted := rfl

theorem Memory.read_cons (k : Nat) (b : Byte) (m : Memory) (a : Nat) :
    Memory.read ((k, b) :: m) a = if k = a then b else m.read a := rfl

/-- Below the first address a memory's form allows, nothing is listed. -/
theorem Memory.read_of_lt {m : Memory} {lo a : Nat} (h : Memory.wfFrom lo m = true) (ha : a < lo) :
    m.read a = Memory.unlisted := by
  induction m generalizing lo with
  | nil => rfl
  | cons c m ih =>
    obtain ⟨k, b⟩ := c
    simp only [Memory.wfFrom, Bool.and_eq_true, decide_eq_true_eq] at h
    rw [Memory.read_cons, if_neg (by omega), ih h.2 (by omega)]

/-- The form from an address on holds from every smaller one. -/
theorem Memory.wfFrom_mono {m : Memory} {lo lo' : Nat} (h : Memory.wfFrom lo m = true) (hl : lo' ≤ lo) :
    Memory.wfFrom lo' m = true := by
  cases m with
  | nil => rfl
  | cons c m =>
    obtain ⟨k, b⟩ := c
    simp only [Memory.wfFrom, Bool.and_eq_true, decide_eq_true_eq] at h ⊢
    exact ⟨⟨by omega, h.1.2⟩, h.2⟩

theorem Memory.wfFrom_cons {m : Memory} {a lo : Nat} (b : Byte) (h : Memory.wfFrom (a + 1) m = true) (hl : lo ≤ a) :
    Memory.wfFrom lo (Memory.cons a b m) = true := by
  unfold Memory.cons
  split
  · exact Memory.wfFrom_mono h (by omega)
  · rename_i hb
    simpa [Memory.wfFrom, hb, hl] using h

theorem Memory.read_consIf {m : Memory} {a : Nat} (b : Byte) (h : Memory.wfFrom (a + 1) m = true) (a' : Nat) :
    (Memory.cons a b m).read a' = if a = a' then b else m.read a' := by
  unfold Memory.cons
  split
  · rename_i hb
    split
    · subst a'
      rw [Memory.read_of_lt h (by omega), hb]
    · rfl
  · exact Memory.read_cons a b m a'

/-- A write keeps the form, from any address not above the one written. -/
theorem Memory.wfFrom_write {m : Memory} {lo a : Nat} (b : Byte) (h : Memory.wfFrom lo m = true) (hl : lo ≤ a) :
    Memory.wfFrom lo (m.write a b) = true := by
  induction m generalizing lo with
  | nil => exact Memory.wfFrom_cons b rfl hl
  | cons c m ih =>
    obtain ⟨k, c⟩ := c
    have h' := h
    simp only [Memory.wfFrom, Bool.and_eq_true, decide_eq_true_eq] at h'
    simp only [Memory.write]
    split
    · refine Memory.wfFrom_cons b ?_ hl
      simp only [Memory.wfFrom, Bool.and_eq_true, decide_eq_true_eq]
      exact ⟨⟨by omega, h'.1.2⟩, h'.2⟩
    · split
      · rename_i hak
        exact Memory.wfFrom_cons b (hak ▸ h'.2) hl
      · simp only [Memory.wfFrom, Bool.and_eq_true, decide_eq_true_eq]
        exact ⟨h'.1, ih h'.2 (by omega)⟩

/-- Read after write, on a memory in canonical form from some address on. -/
theorem Memory.read_write_from {m : Memory} {lo : Nat} (a : Nat) (b : Byte) (h : Memory.wfFrom lo m = true) (a' : Nat) :
    (m.write a b).read a' = if a = a' then b else m.read a' := by
  induction m generalizing lo with
  | nil => exact Memory.read_consIf b rfl a'
  | cons c m ih =>
    obtain ⟨k, c⟩ := c
    have h' := h
    simp only [Memory.wfFrom, Bool.and_eq_true, decide_eq_true_eq] at h'
    simp only [Memory.write]
    split
    · refine Memory.read_consIf b ?_ a'
      simp only [Memory.wfFrom, Bool.and_eq_true, decide_eq_true_eq]
      exact ⟨⟨by omega, h'.1.2⟩, h'.2⟩
    · split
      · rename_i hak
        rw [Memory.read_consIf b (hak ▸ h'.2), Memory.read_cons]
        subst hak
        split <;> rfl
      · rename_i hne
        rw [Memory.read_cons, Memory.read_cons, ih h'.2]
        split
        · rename_i hk
          rw [if_neg (by omega)]
        · rfl

/-- A write gives the byte written at its address, and every other address reads as before. -/
theorem Memory.read_write {m : Memory} (h : m.wf = true) (a : Nat) (b : Byte) (a' : Nat) :
    (m.write a b).read a' = if a = a' then b else m.read a' := Memory.read_write_from a b h a'

/-- A write keeps the canonical form. -/
theorem Memory.wf_write {m : Memory} (h : m.wf = true) (a : Nat) (b : Byte) : (m.write a b).wf = true :=
  Memory.wfFrom_write b h (Nat.zero_le a)

theorem Memory.mem_consIf {m : Memory} {a : Nat} {b : Byte} {c : Host.Cell} (h : c ∈ Memory.cons a b m) :
    c = (a, b) ∨ c ∈ m := by
  unfold Memory.cons at h
  split at h
  · exact .inr h
  · simpa using h

/-- A write lists no address but the one written and those listed before. -/
theorem Memory.mem_write {m : Memory} {a : Nat} {b : Byte} {c : Host.Cell} (h : c ∈ m.write a b) :
    c = (a, b) ∨ c ∈ m := by
  induction m with
  | nil => exact Memory.mem_consIf h
  | cons k m ih =>
    obtain ⟨k, d⟩ := k
    simp only [Memory.write] at h
    split at h
    · exact Memory.mem_consIf h
    · split at h
      · exact (Memory.mem_consIf h).imp_right (List.mem_cons_of_mem _)
      · rcases List.mem_cons.mp h with h | h
        · exact .inr (h ▸ List.mem_cons_self)
        · exact (ih h).imp_right (List.mem_cons_of_mem _)

/-- A write below the bound keeps the bound. -/
theorem Memory.below_write {m : Memory} {n a : Nat} (b : Byte) (h : m.below n = true) (ha : a < n) :
    (m.write a b).below n = true := by
  simp only [Memory.below, List.all_eq_true, decide_eq_true_eq] at h ⊢
  intro c hc
  rcases Memory.mem_write hc with rfl | hc
  · exact ha
  · exact h c hc

theorem Memory.wfFrom_range' (lo n : Nat) {b : Byte} (hb : b ≠ Memory.unlisted) :
    Memory.wfFrom lo ((List.range' lo n).map fun a => (a, b)) = true := by
  induction n generalizing lo with
  | zero => rfl
  | succ n ih => simp [List.range'_succ, Memory.wfFrom, hb, ih (lo + 1)]

/-- Filling gives the canonical form. -/
theorem Memory.wf_filled (n : Nat) (b : Byte) : (Memory.filled n b).wf = true := by
  unfold Memory.filled
  split
  · rfl
  · rename_i hb
    rw [List.range_eq_range']
    exact Memory.wfFrom_range' 0 n hb

/-- Filling lists only the bytes filled. -/
theorem Memory.below_filled (n : Nat) (b : Byte) : (Memory.filled n b).below n = true := by
  unfold Memory.filled
  split
  · rfl
  · simp [Memory.below]

theorem Memory.read_range' (lo n : Nat) (b : Byte) (a : Nat) :
    Memory.read ((List.range' lo n).map fun a => (a, b)) a = if lo ≤ a ∧ a < lo + n then b else Memory.unlisted := by
  induction n generalizing lo with
  | zero => rw [if_neg (by omega)]; rfl
  | succ n ih =>
    rw [List.range'_succ, List.map_cons, Memory.read_cons, ih]
    by_cases hlo : lo = a
    · rw [if_pos hlo, if_pos (by omega)]
    · rw [if_neg hlo]
      exact if_congr (by omega) rfl rfl

/-- Every byte filled reads as the fill byte. -/
theorem Memory.read_filled (n : Nat) (b : Byte) {a : Nat} (ha : a < n) : (Memory.filled n b).read a = b := by
  unfold Memory.filled
  split
  · rename_i hb
    exact hb.symm
  · rw [List.range_eq_range', Memory.read_range', if_pos (by omega)]

/-- Nothing is listed at or above a memory's bound. -/
theorem Memory.read_of_below {m : Memory} {n a : Nat} (h : m.below n = true) (ha : n ≤ a) : m.read a = Memory.unlisted := by
  induction m with
  | nil => rfl
  | cons c m ih =>
    obtain ⟨k, b⟩ := c
    simp only [Memory.below, List.all_cons, Bool.and_eq_true, decide_eq_true_eq] at h
    rw [Memory.read_cons, if_neg (by omega)]
    exact ih h.2

theorem Memory.ext_from {m m' : Memory} {lo : Nat} (h : Memory.wfFrom lo m = true) (h' : Memory.wfFrom lo m' = true)
    (hr : ∀ a, m.read a = m'.read a) : m = m' := by
  induction m generalizing lo m' with
  | nil =>
    cases m' with
    | nil => rfl
    | cons c m' =>
      obtain ⟨k, b⟩ := c
      have := hr k
      simp only [Memory.wfFrom, Bool.and_eq_true, bne_iff_ne] at h'
      simp only [Memory.read_nil, Memory.read_cons, if_pos] at this
      exact absurd this.symm h'.1.2
  | cons c m ih =>
    obtain ⟨k, b⟩ := c
    have h0 := h
    simp only [Memory.wfFrom, Bool.and_eq_true, bne_iff_ne, decide_eq_true_eq] at h0
    cases m' with
    | nil =>
      have := hr k
      simp only [Memory.read_nil, Memory.read_cons, if_pos] at this
      exact absurd this h0.1.2
    | cons c' m' =>
      obtain ⟨k', b'⟩ := c'
      have h0' := h'
      simp only [Memory.wfFrom, Bool.and_eq_true, bne_iff_ne, decide_eq_true_eq] at h0'
      have hk : k = k' := by
        rcases Nat.lt_trichotomy k k' with hlt | heq | hgt
        · have := hr k
          rw [Memory.read_cons, if_pos rfl, Memory.read_cons, if_neg (by omega),
            Memory.read_of_lt h0'.2 (by omega)] at this
          exact absurd this h0.1.2
        · exact heq
        · have := hr k'
          rw [Memory.read_cons, if_neg (by omega), Memory.read_of_lt h0.2 (by omega), Memory.read_cons,
            if_pos rfl] at this
          exact absurd this.symm h0'.1.2
      subst hk
      have hb : b = b' := by simpa [Memory.read_cons] using hr k
      subst hb
      have hm : m = m' := by
        refine ih h0.2 h0'.2 fun a => ?_
        by_cases ha : k = a
        · subst ha
          rw [Memory.read_of_lt h0.2 (by omega), Memory.read_of_lt h0'.2 (by omega)]
        · simpa [Memory.read_cons, ha] using hr a
      rw [hm]

/-- Canonical memories that read alike at every address are equal. -/
theorem Memory.ext_of_wf {m m' : Memory} (h : m.wf = true) (h' : m'.wf = true) (hr : ∀ a, m.read a = m'.read a) :
    m = m' := Memory.ext_from h h' hr

/-- A write of what the address already reads as changes nothing. -/
theorem Memory.write_read {m : Memory} (h : m.wf = true) (a : Nat) : m.write a (m.read a) = m := by
  refine Memory.ext_of_wf (Memory.wf_write h a _) h fun a' => ?_
  rw [Memory.read_write h]
  split
  · rename_i ha
    rw [ha]
  · rfl

/-- Of two writes to one address the later one counts. -/
theorem Memory.write_write {m : Memory} (h : m.wf = true) (a : Nat) (b c : Byte) :
    (m.write a b).write a c = m.write a c := by
  refine Memory.ext_of_wf (Memory.wf_write (Memory.wf_write h a b) a c) (Memory.wf_write h a c) fun a' => ?_
  rw [Memory.read_write (Memory.wf_write h a b), Memory.read_write h, Memory.read_write h]
  split <;> rfl

end Sys2Proof.Machine
end

