-- ==== Sys2Proof/Laws/State.lean ====
section
/-! SUPPORT. One lemma per field of State per update of Machine/Ops.lean and Machine/Port.lean. -/

namespace Sys2Proof.Machine

variable (s : State)

@[simp] theorem State.storeByte_geom (a : Nat) (b : Byte) : (s.storeByte a b).geom = s.geom := rfl
@[simp] theorem State.storeByte_fb (a : Nat) (b : Byte) : (s.storeByte a b).fb = s.fb.write a b := rfl
@[simp] theorem State.storeByte_phase (a : Nat) (b : Byte) : (s.storeByte a b).phase = s.phase := rfl
@[simp] theorem State.storeByte_rowSel (a : Nat) (b : Byte) : (s.storeByte a b).rowSel = s.rowSel := rfl
@[simp] theorem State.storeByte_rowOe (a : Nat) (b : Byte) : (s.storeByte a b).rowOe = s.rowOe := rfl
@[simp] theorem State.storeByte_latched (a : Nat) (b : Byte) : (s.storeByte a b).latched = s.latched := rfl
@[simp] theorem State.storeByte_responses (a : Nat) (b : Byte) : (s.storeByte a b).responses = s.responses := rfl
@[simp] theorem State.storeByte_events (a : Nat) (b : Byte) : (s.storeByte a b).events = s.events := rfl
@[simp] theorem State.storeByte_refusals (a : Nat) (b : Byte) : (s.storeByte a b).refusals = s.refusals := rfl
@[simp] theorem State.storeByte_busFree (a : Nat) (b : Byte) : (s.storeByte a b).busFree = s.busFree := rfl
@[simp] theorem State.storeByte_port (a : Nat) (b : Byte) : (s.storeByte a b).port = s.port := rfl

@[simp] theorem State.fillBytes_geom (b : Byte) : (s.fillBytes b).geom = s.geom := rfl
@[simp] theorem State.fillBytes_fb (b : Byte) : (s.fillBytes b).fb = Memory.filled s.geom.fbBytes b := rfl
@[simp] theorem State.fillBytes_phase (b : Byte) : (s.fillBytes b).phase = s.phase := rfl
@[simp] theorem State.fillBytes_rowSel (b : Byte) : (s.fillBytes b).rowSel = s.rowSel := rfl
@[simp] theorem State.fillBytes_rowOe (b : Byte) : (s.fillBytes b).rowOe = s.rowOe := rfl
@[simp] theorem State.fillBytes_latched (b : Byte) : (s.fillBytes b).latched = s.latched := rfl
@[simp] theorem State.fillBytes_responses (b : Byte) : (s.fillBytes b).responses = s.responses := rfl
@[simp] theorem State.fillBytes_events (b : Byte) : (s.fillBytes b).events = s.events := rfl
@[simp] theorem State.fillBytes_refusals (b : Byte) : (s.fillBytes b).refusals = s.refusals := rfl
@[simp] theorem State.fillBytes_busFree (b : Byte) : (s.fillBytes b).busFree = s.busFree := rfl
@[simp] theorem State.fillBytes_port (b : Byte) : (s.fillBytes b).port = s.port := rfl

@[simp] theorem State.respond_geom (r : Byte) : (s.respond r).geom = s.geom := rfl
@[simp] theorem State.respond_fb (r : Byte) : (s.respond r).fb = s.fb := rfl
@[simp] theorem State.respond_phase (r : Byte) : (s.respond r).phase = s.phase := rfl
@[simp] theorem State.respond_rowSel (r : Byte) : (s.respond r).rowSel = s.rowSel := rfl
@[simp] theorem State.respond_rowOe (r : Byte) : (s.respond r).rowOe = s.rowOe := rfl
@[simp] theorem State.respond_latched (r : Byte) : (s.respond r).latched = s.latched := rfl
@[simp] theorem State.respond_responses (r : Byte) : (s.respond r).responses = s.responses ++ [r] := rfl
@[simp] theorem State.respond_events (r : Byte) : (s.respond r).events = s.events := rfl
@[simp] theorem State.respond_refusals (r : Byte) : (s.respond r).refusals = s.refusals := rfl
@[simp] theorem State.respond_busFree (r : Byte) : (s.respond r).busFree = s.busFree := rfl
@[simp] theorem State.respond_port (r : Byte) : (s.respond r).port = s.port := rfl

@[simp] theorem State.emit_geom (es : List Event) : (s.emit es).geom = s.geom := rfl
@[simp] theorem State.emit_fb (es : List Event) : (s.emit es).fb = s.fb := rfl
@[simp] theorem State.emit_phase (es : List Event) : (s.emit es).phase = s.phase := rfl
@[simp] theorem State.emit_rowSel (es : List Event) : (s.emit es).rowSel = s.rowSel := rfl
@[simp] theorem State.emit_rowOe (es : List Event) : (s.emit es).rowOe = s.rowOe := rfl
@[simp] theorem State.emit_latched (es : List Event) : (s.emit es).latched = s.latched := rfl
@[simp] theorem State.emit_responses (es : List Event) : (s.emit es).responses = s.responses := rfl
@[simp] theorem State.emit_events (es : List Event) : (s.emit es).events = s.events ++ es := rfl
@[simp] theorem State.emit_refusals (es : List Event) : (s.emit es).refusals = s.refusals := rfl
@[simp] theorem State.emit_busFree (es : List Event) : (s.emit es).busFree = s.busFree := rfl
@[simp] theorem State.emit_port (es : List Event) : (s.emit es).port = s.port := rfl

@[simp] theorem State.transmit_geom (bytes : List Byte) : (s.transmit bytes).geom = s.geom := rfl
@[simp] theorem State.transmit_fb (bytes : List Byte) : (s.transmit bytes).fb = s.fb := rfl
@[simp] theorem State.transmit_phase (bytes : List Byte) : (s.transmit bytes).phase = s.phase := rfl
@[simp] theorem State.transmit_rowSel (bytes : List Byte) : (s.transmit bytes).rowSel = s.rowSel := rfl
@[simp] theorem State.transmit_rowOe (bytes : List Byte) : (s.transmit bytes).rowOe = s.rowOe := rfl
@[simp] theorem State.transmit_latched (bytes : List Byte) : (s.transmit bytes).latched = s.latched := rfl
@[simp] theorem State.transmit_responses (bytes : List Byte) : (s.transmit bytes).responses = s.responses := rfl
@[simp] theorem State.transmit_events (bytes : List Byte) : (s.transmit bytes).events = s.events ++ bytes.map Event.tx := rfl
@[simp] theorem State.transmit_refusals (bytes : List Byte) : (s.transmit bytes).refusals = s.refusals := rfl
@[simp] theorem State.transmit_busFree (bytes : List Byte) : (s.transmit bytes).busFree = s.busFree := rfl
@[simp] theorem State.transmit_port (bytes : List Byte) : (s.transmit bytes).port = s.port := rfl

@[simp] theorem State.setOutputEnabled_geom (e : Bool) : (s.setOutputEnabled e).geom = s.geom := rfl
@[simp] theorem State.setOutputEnabled_fb (e : Bool) : (s.setOutputEnabled e).fb = s.fb := rfl
@[simp] theorem State.setOutputEnabled_phase (e : Bool) : (s.setOutputEnabled e).phase = s.phase := rfl
@[simp] theorem State.setOutputEnabled_rowSel (e : Bool) : (s.setOutputEnabled e).rowSel = s.rowSel := rfl
@[simp] theorem State.setOutputEnabled_rowOe (e : Bool) : (s.setOutputEnabled e).rowOe = e := rfl
@[simp] theorem State.setOutputEnabled_latched (e : Bool) : (s.setOutputEnabled e).latched = s.latched := rfl
@[simp] theorem State.setOutputEnabled_responses (e : Bool) : (s.setOutputEnabled e).responses = s.responses := rfl
@[simp] theorem State.setOutputEnabled_events (e : Bool) : (s.setOutputEnabled e).events = s.events ++ [.oe e] := rfl
@[simp] theorem State.setOutputEnabled_refusals (e : Bool) : (s.setOutputEnabled e).refusals = s.refusals := rfl
@[simp] theorem State.setOutputEnabled_busFree (e : Bool) : (s.setOutputEnabled e).busFree = s.busFree := rfl
@[simp] theorem State.setOutputEnabled_port (e : Bool) : (s.setOutputEnabled e).port = s.port := rfl

@[simp] theorem State.latchOutput_geom (bytes : List Byte) : (s.latchOutput bytes).geom = s.geom := rfl
@[simp] theorem State.latchOutput_fb (bytes : List Byte) : (s.latchOutput bytes).fb = s.fb := rfl
@[simp] theorem State.latchOutput_phase (bytes : List Byte) : (s.latchOutput bytes).phase = s.phase := rfl
@[simp] theorem State.latchOutput_rowSel (bytes : List Byte) : (s.latchOutput bytes).rowSel = s.rowSel := rfl
@[simp] theorem State.latchOutput_rowOe (bytes : List Byte) : (s.latchOutput bytes).rowOe = s.rowOe := rfl
@[simp] theorem State.latchOutput_latched (bytes : List Byte) : (s.latchOutput bytes).latched = some bytes := rfl
@[simp] theorem State.latchOutput_responses (bytes : List Byte) : (s.latchOutput bytes).responses = s.responses := rfl
@[simp] theorem State.latchOutput_events (bytes : List Byte) : (s.latchOutput bytes).events = s.events ++ [.latch] := rfl
@[simp] theorem State.latchOutput_refusals (bytes : List Byte) : (s.latchOutput bytes).refusals = s.refusals := rfl
@[simp] theorem State.latchOutput_busFree (bytes : List Byte) : (s.latchOutput bytes).busFree = s.busFree := rfl
@[simp] theorem State.latchOutput_port (bytes : List Byte) : (s.latchOutput bytes).port = s.port := rfl

@[simp] theorem State.setRowSelect_geom (g : BitVec 2) : (s.setRowSelect g).geom = s.geom := rfl
@[simp] theorem State.setRowSelect_fb (g : BitVec 2) : (s.setRowSelect g).fb = s.fb := rfl
@[simp] theorem State.setRowSelect_phase (g : BitVec 2) : (s.setRowSelect g).phase = s.phase := rfl
@[simp] theorem State.setRowSelect_rowSel (g : BitVec 2) : (s.setRowSelect g).rowSel = g := rfl
@[simp] theorem State.setRowSelect_rowOe (g : BitVec 2) : (s.setRowSelect g).rowOe = s.rowOe := rfl
@[simp] theorem State.setRowSelect_latched (g : BitVec 2) : (s.setRowSelect g).latched = s.latched := rfl
@[simp] theorem State.setRowSelect_responses (g : BitVec 2) : (s.setRowSelect g).responses = s.responses := rfl
@[simp] theorem State.setRowSelect_events (g : BitVec 2) : (s.setRowSelect g).events = s.events ++ [.rowSel g] := rfl
@[simp] theorem State.setRowSelect_refusals (g : BitVec 2) : (s.setRowSelect g).refusals = s.refusals := rfl
@[simp] theorem State.setRowSelect_busFree (g : BitVec 2) : (s.setRowSelect g).busFree = s.busFree := rfl
@[simp] theorem State.setRowSelect_port (g : BitVec 2) : (s.setRowSelect g).port = s.port := rfl

@[simp] theorem State.advancePhase_geom : s.advancePhase.geom = s.geom := rfl
@[simp] theorem State.advancePhase_fb : s.advancePhase.fb = s.fb := rfl
@[simp] theorem State.advancePhase_phase : s.advancePhase.phase = s.phase + 1 := rfl
@[simp] theorem State.advancePhase_rowSel : s.advancePhase.rowSel = s.rowSel := rfl
@[simp] theorem State.advancePhase_rowOe : s.advancePhase.rowOe = s.rowOe := rfl
@[simp] theorem State.advancePhase_latched : s.advancePhase.latched = s.latched := rfl
@[simp] theorem State.advancePhase_responses : s.advancePhase.responses = s.responses := rfl
@[simp] theorem State.advancePhase_events : s.advancePhase.events = s.events := rfl
@[simp] theorem State.advancePhase_refusals : s.advancePhase.refusals = s.refusals := rfl
@[simp] theorem State.advancePhase_busFree : s.advancePhase.busFree = s.busFree := rfl
@[simp] theorem State.advancePhase_port : s.advancePhase.port = s.port := rfl

@[simp] theorem State.markRefused_geom (r : Refusal) : (s.markRefused r).geom = s.geom := rfl
@[simp] theorem State.markRefused_fb (r : Refusal) : (s.markRefused r).fb = s.fb := rfl
@[simp] theorem State.markRefused_phase (r : Refusal) : (s.markRefused r).phase = s.phase := rfl
@[simp] theorem State.markRefused_rowSel (r : Refusal) : (s.markRefused r).rowSel = s.rowSel := rfl
@[simp] theorem State.markRefused_rowOe (r : Refusal) : (s.markRefused r).rowOe = s.rowOe := rfl
@[simp] theorem State.markRefused_latched (r : Refusal) : (s.markRefused r).latched = s.latched := rfl
@[simp] theorem State.markRefused_responses (r : Refusal) : (s.markRefused r).responses = s.responses := rfl
@[simp] theorem State.markRefused_events (r : Refusal) : (s.markRefused r).events = s.events := rfl
@[simp] theorem State.markRefused_refusals (r : Refusal) : (s.markRefused r).refusals = s.refusals ++ [r] := rfl
@[simp] theorem State.markRefused_busFree (r : Refusal) : (s.markRefused r).busFree = s.busFree := rfl
@[simp] theorem State.markRefused_port (r : Refusal) : (s.markRefused r).port = s.port := rfl

@[simp] theorem State.taking_geom (input : PortInput) (rest : List PortInput) : (s.taking input rest).geom = s.geom := rfl
@[simp] theorem State.taking_fb (input : PortInput) (rest : List PortInput) : (s.taking input rest).fb = s.fb := rfl
@[simp] theorem State.taking_phase (input : PortInput) (rest : List PortInput) : (s.taking input rest).phase = s.phase := rfl
@[simp] theorem State.taking_rowSel (input : PortInput) (rest : List PortInput) : (s.taking input rest).rowSel = s.rowSel := rfl
@[simp] theorem State.taking_rowOe (input : PortInput) (rest : List PortInput) : (s.taking input rest).rowOe = s.rowOe := rfl
@[simp] theorem State.taking_latched (input : PortInput) (rest : List PortInput) : (s.taking input rest).latched = s.latched := rfl
@[simp] theorem State.taking_responses (input : PortInput) (rest : List PortInput) : (s.taking input rest).responses = s.responses := rfl
@[simp] theorem State.taking_events (input : PortInput) (rest : List PortInput) : (s.taking input rest).events = s.events := rfl
@[simp] theorem State.taking_refusals (input : PortInput) (rest : List PortInput) : (s.taking input rest).refusals = s.refusals := rfl
@[simp] theorem State.taking_busFree (input : PortInput) (rest : List PortInput) : (s.taking input rest).busFree = input.busFree := rfl
@[simp] theorem State.taking_port (input : PortInput) (rest : List PortInput) : (s.taking input rest).port = rest := rfl

@[simp] theorem State.afterRefusal_geom (r : Refusal) : (s.afterRefusal r).geom = s.geom := rfl
@[simp] theorem State.afterRefusal_fb (r : Refusal) : (s.afterRefusal r).fb = s.fb := rfl
@[simp] theorem State.afterRefusal_phase (r : Refusal) : (s.afterRefusal r).phase = s.phase := rfl
@[simp] theorem State.afterRefusal_rowSel (r : Refusal) : (s.afterRefusal r).rowSel = s.rowSel := rfl
@[simp] theorem State.afterRefusal_rowOe (r : Refusal) : (s.afterRefusal r).rowOe = s.rowOe := rfl
@[simp] theorem State.afterRefusal_latched (r : Refusal) : (s.afterRefusal r).latched = s.latched := rfl
@[simp] theorem State.afterRefusal_responses (r : Refusal) : (s.afterRefusal r).responses = s.responses := rfl
@[simp] theorem State.afterRefusal_events (r : Refusal) : (s.afterRefusal r).events = s.events := rfl
@[simp] theorem State.afterRefusal_refusals (r : Refusal) : (s.afterRefusal r).refusals = s.refusals ++ [r] := rfl
@[simp] theorem State.afterRefusal_busFree (r : Refusal) : (s.afterRefusal r).busFree = s.busFree := rfl
@[simp] theorem State.afterRefusal_port (r : Refusal) : (s.afterRefusal r).port = s.port.tail := rfl

@[simp] theorem State.present_geom (input : PortInput) : (s.present input).geom = s.geom := rfl
@[simp] theorem State.present_fb (input : PortInput) : (s.present input).fb = s.fb := rfl
@[simp] theorem State.present_phase (input : PortInput) : (s.present input).phase = s.phase := rfl
@[simp] theorem State.present_rowSel (input : PortInput) : (s.present input).rowSel = s.rowSel := rfl
@[simp] theorem State.present_rowOe (input : PortInput) : (s.present input).rowOe = s.rowOe := rfl
@[simp] theorem State.present_latched (input : PortInput) : (s.present input).latched = s.latched := rfl
@[simp] theorem State.present_responses (input : PortInput) : (s.present input).responses = s.responses := rfl
@[simp] theorem State.present_events (input : PortInput) : (s.present input).events = s.events := rfl
@[simp] theorem State.present_refusals (input : PortInput) : (s.present input).refusals = s.refusals := rfl
@[simp] theorem State.present_busFree (input : PortInput) : (s.present input).busFree = s.busFree := rfl
@[simp] theorem State.present_port (input : PortInput) : (s.present input).port = s.port ++ [input] := rfl

end Sys2Proof.Machine
end

