-- ==== Sys2Proof/Laws/Ops.lean ====
section
/-! SUPPORT. For each operation the commands share, what it does, said once. -/

namespace Sys2Proof.Machine

/-- A pixel write changes nothing but the framebuffer. -/
theorem writePixel_eq (mux : Bool → Byte → Byte → Byte) (x y : Int) (v : Bool) (s : State) :
    writePixel mux x y v s = { s with fb := (writePixel mux x y v s).fb } := by
  unfold writePixel
  split <;> rfl

@[simp] theorem writePixel_geom (mux : Bool → Byte → Byte → Byte) (x y : Int) (v : Bool) (s : State) :
    (writePixel mux x y v s).geom = s.geom := by rw [writePixel_eq]

@[simp] theorem writePixel_phase (mux : Bool → Byte → Byte → Byte) (x y : Int) (v : Bool) (s : State) :
    (writePixel mux x y v s).phase = s.phase := by rw [writePixel_eq]

@[simp] theorem writePixel_rowSel (mux : Bool → Byte → Byte → Byte) (x y : Int) (v : Bool) (s : State) :
    (writePixel mux x y v s).rowSel = s.rowSel := by rw [writePixel_eq]

@[simp] theorem writePixel_rowOe (mux : Bool → Byte → Byte → Byte) (x y : Int) (v : Bool) (s : State) :
    (writePixel mux x y v s).rowOe = s.rowOe := by rw [writePixel_eq]

@[simp] theorem writePixel_latched (mux : Bool → Byte → Byte → Byte) (x y : Int) (v : Bool) (s : State) :
    (writePixel mux x y v s).latched = s.latched := by rw [writePixel_eq]

@[simp] theorem writePixel_responses (mux : Bool → Byte → Byte → Byte) (x y : Int) (v : Bool) (s : State) :
    (writePixel mux x y v s).responses = s.responses := by rw [writePixel_eq]

@[simp] theorem writePixel_events (mux : Bool → Byte → Byte → Byte) (x y : Int) (v : Bool) (s : State) :
    (writePixel mux x y v s).events = s.events := by rw [writePixel_eq]

@[simp] theorem writePixel_refusals (mux : Bool → Byte → Byte → Byte) (x y : Int) (v : Bool) (s : State) :
    (writePixel mux x y v s).refusals = s.refusals := by rw [writePixel_eq]

@[simp] theorem writePixel_busFree (mux : Bool → Byte → Byte → Byte) (x y : Int) (v : Bool) (s : State) :
    (writePixel mux x y v s).busFree = s.busFree := by rw [writePixel_eq]

@[simp] theorem writePixel_port (mux : Bool → Byte → Byte → Byte) (x y : Int) (v : Bool) (s : State) :
    (writePixel mux x y v s).port = s.port := by rw [writePixel_eq]

/-- The two cases of a pixel write. -/
theorem writePixel_cases (mux : Bool → Byte → Byte → Byte) (x y : Int) (v : Bool) (s : State) :
    (addresser s.geom x y = none ∧ writePixel mux x y v s = s) ∨
      ∃ a m, addresser s.geom x y = some (a, m) ∧ a < s.geom.fbBytes ∧
        writePixel mux x y v s = { s with fb := s.fb.write a (mux v (s.fb.read a) m) } := by
  unfold writePixel
  cases h : addresser s.geom x y with
  | none => exact .inl ⟨rfl, rfl⟩
  | some p => exact .inr ⟨p.1, p.2, rfl, addresser_lt h, rfl⟩

/-- The two cases of a byte command's address check (R71). -/
theorem withAddress_cases (addr : Nat) (s t : State) :
    (s.geom.fbBytes ≤ addr ∧ withAddress addr s t = .refused (.addressOutOfRange addr)) ∨
      (addr < s.geom.fbBytes ∧ withAddress addr s t = .next t) := by
  unfold withAddress
  split
  · exact .inl ⟨by omega, rfl⟩
  · exact .inr ⟨by omega, rfl⟩

/-- Everything a scan step that finds the bus free changes, the events in one list. -/
theorem scanFree_eq (s : State) :
    scanFree s = { s with
      phase := s.phase + 1, rowSel := s.phase, rowOe := true, latched := some (scanBytes s),
      events := s.events ++ ((scanBytes s).map Event.tx ++ [.oe false, .latch, .rowSel s.phase, .oe true]) } := by
  simp [scanFree, State.advancePhase, State.setOutputEnabled, State.setRowSelect, State.latchOutput, State.transmit,
    State.emit]

@[simp] theorem scanFree_geom (s : State) : (scanFree s).geom = s.geom := by rw [scanFree_eq]

@[simp] theorem scanFree_fb (s : State) : (scanFree s).fb = s.fb := by rw [scanFree_eq]

@[simp] theorem scanFree_phase (s : State) : (scanFree s).phase = s.phase + 1 := by rw [scanFree_eq]

@[simp] theorem scanFree_rowSel (s : State) : (scanFree s).rowSel = s.phase := by rw [scanFree_eq]

@[simp] theorem scanFree_rowOe (s : State) : (scanFree s).rowOe = true := by rw [scanFree_eq]

@[simp] theorem scanFree_latched (s : State) : (scanFree s).latched = some (scanBytes s) := by rw [scanFree_eq]

@[simp] theorem scanFree_responses (s : State) : (scanFree s).responses = s.responses := by rw [scanFree_eq]

@[simp] theorem scanFree_refusals (s : State) : (scanFree s).refusals = s.refusals := by rw [scanFree_eq]

@[simp] theorem scanFree_busFree (s : State) : (scanFree s).busFree = s.busFree := by rw [scanFree_eq]

@[simp] theorem scanFree_port (s : State) : (scanFree s).port = s.port := by rw [scanFree_eq]

@[simp] theorem scanFree_events (s : State) : (scanFree s).events =
    s.events ++ ((scanBytes s).map Event.tx ++ [.oe false, .latch, .rowSel s.phase, .oe true]) := by
  rw [scanFree_eq]

/-- A scan step transmits `BYTES_PER_SCAN` bytes (R78). -/
theorem scanAddrs_length (g : Geometry) (p : BitVec 2) : (scanAddrs g p).length = g.bytesPerScan := by
  simp [scanAddrs, List.length_flatMap, Geometry.bytesPerScan]

theorem scanBytes_length (s : State) : (scanBytes s).length = s.geom.bytesPerScan := by
  rw [scanBytes, List.length_map, scanAddrs_length]

end Sys2Proof.Machine
end

