-- ==== Sys2Proof/Laws/Exec.lean ====
section
/-! SUPPORT. What a command can do, said once. -/

namespace Sys2Proof.Machine

/-- A pixel write of any mode goes through that mode's composition function (R60). -/
theorem exec_writePixel (mode : Mode) (x y : Int) (v : Bool) (s : State) :
    exec (.writePixel mode x y v) s = .next (writePixel (compose mode) x y v s) := by
  cases mode <;> rfl

/-- Every done command is one of these, with this next state. -/
theorem exec_next_cases {i : Instr} {s t : State} (h : exec i s = .next t) :
    (i = .nop ∧ t = s) ∨
    (∃ mode x y v, i = .writePixel mode x y v ∧ t = writePixel (compose mode) x y v s) ∨
    (∃ x y, i = .readPixel x y ∧ t = s.respond (pixelResponse (pixelBit s x y))) ∨
    (∃ normal, i = .fill normal ∧ t = s.fillBytes (fillByte normal)) ∨
    (∃ a, i = .readByte a ∧ a < s.geom.fbBytes ∧ t = s.respond (s.byte a)) ∨
    (∃ a d, i = .writeByte a d ∧ a < s.geom.fbBytes ∧ t = s.storeByte a d) ∨
    (i = .scanStep ∧ t = if s.busFree then scanFree s else s) := by
  cases i with
  | nop => exact .inl ⟨rfl, (Host.Outcome.next.inj h).symm⟩
  | writePixelNormal x y v => exact .inr (.inl ⟨.normal, x, y, v, rfl, (Host.Outcome.next.inj h).symm⟩)
  | writePixelInverse x y v => exact .inr (.inl ⟨.inverse, x, y, v, rfl, (Host.Outcome.next.inj h).symm⟩)
  | writePixelToggle x y v => exact .inr (.inl ⟨.toggle, x, y, v, rfl, (Host.Outcome.next.inj h).symm⟩)
  | writePixelOr x y v => exact .inr (.inl ⟨.or, x, y, v, rfl, (Host.Outcome.next.inj h).symm⟩)
  | writePixelNor x y v => exact .inr (.inl ⟨.nor, x, y, v, rfl, (Host.Outcome.next.inj h).symm⟩)
  | readPixel x y => exact .inr (.inr (.inl ⟨x, y, rfl, (Host.Outcome.next.inj h).symm⟩))
  | fill n => exact .inr (.inr (.inr (.inl ⟨n, rfl, (Host.Outcome.next.inj h).symm⟩)))
  | readByte a =>
    rcases withAddress_cases a s (s.respond (s.byte a)) with ⟨-, hw⟩ | ⟨ha, hw⟩ <;>
      rw [exec, execReadByte, hw] at h
    · cases h
    · exact .inr (.inr (.inr (.inr (.inl ⟨a, rfl, ha, (Host.Outcome.next.inj h).symm⟩))))
  | writeByte a d =>
    rcases withAddress_cases a s (s.storeByte a d) with ⟨-, hw⟩ | ⟨ha, hw⟩ <;>
      rw [exec, execWriteByte, hw] at h
    · cases h
    · exact .inr (.inr (.inr (.inr (.inr (.inl ⟨a, d, rfl, ha, (Host.Outcome.next.inj h).symm⟩)))))
  | scanStep => exact .inr (.inr (.inr (.inr (.inr (.inr ⟨rfl, (Host.Outcome.next.inj h).symm⟩)))))

/-- Only a byte command with an address outside the framebuffer is refused (R71). -/
theorem exec_refused_cases {i : Instr} {s : State} {r : Refusal} (h : exec i s = .refused r) :
    ∃ a, (i = .readByte a ∨ ∃ d, i = .writeByte a d) ∧ s.geom.fbBytes ≤ a ∧ r = .addressOutOfRange a := by
  cases i with
  | readByte a =>
    rcases withAddress_cases a s (s.respond (s.byte a)) with ⟨ha, hw⟩ | ⟨-, hw⟩ <;>
      rw [exec, execReadByte, hw] at h
    · exact ⟨a, .inl rfl, ha, (Host.Outcome.refused.inj h).symm⟩
    · cases h
  | writeByte a d =>
    rcases withAddress_cases a s (s.storeByte a d) with ⟨ha, hw⟩ | ⟨-, hw⟩ <;>
      rw [exec, execWriteByte, hw] at h
    · exact ⟨a, .inr ⟨d, rfl⟩, ha, (Host.Outcome.refused.inj h).symm⟩
    · cases h
  | _ => cases h

end Sys2Proof.Machine
end

