-- ==== Sys2Proof/Laws/PerInstr.lean ====
section
/-! SUPPORT. One statement for every command, as syntax: the encoder's word matches the command's row of R52. -/

namespace Sys2Proof.Laws.RowMatch

/-- Every row of the table that carries the command's mnemonic matches the command's word (R51, R52). -/
def Statement (i : Instr) : Prop := ∀ r ∈ opcodeRows, r.mnemonic = i.mnemonic → r.fits (encode i) = true

/-- The fields of format `P` fixed by a row: `OP`, `MODE`, `DATA`, `RSVD` (R46). -/
def pixelMask : Fields := ⟨0xF, 7, 0, 0xFF, 0, 0, 0xFFFF⟩

theorem pixelFields_fit (name : String) (m : Mode) (x y : Int) (v : Bool) (w : Word)
    (hw : w = wordOf ⟨1, modeCode m, 0, 0, 0, 0, 0⟩) :
    (OpcodeRow.mk name w 0xFFFF00000000FF7F).fits (wordOf (pixelFields m x y v)) = true := by
  rw [hw, show (0xFFFF00000000FF7F : Word) = wordOf pixelMask from by decide, fits_wordOf]
  cases m <;> simp [pixelFields, pixelMask, Fields.and, modeCode]

theorem nop : Statement .nop := by
  unfold Statement
  decide

theorem writePixelNormal (x y : Int) (v : Bool) : Statement (.writePixelNormal x y v) := by
  simpa [Statement, opcodeRows, Instr.mnemonic, encode, encodeFields] using
    pixelFields_fit _ .normal x y v 0x0000000000000001 (by decide)

theorem writePixelInverse (x y : Int) (v : Bool) : Statement (.writePixelInverse x y v) := by
  simpa [Statement, opcodeRows, Instr.mnemonic, encode, encodeFields] using
    pixelFields_fit _ .inverse x y v 0x0000000000000011 (by decide)

theorem writePixelToggle (x y : Int) (v : Bool) : Statement (.writePixelToggle x y v) := by
  simpa [Statement, opcodeRows, Instr.mnemonic, encode, encodeFields] using
    pixelFields_fit _ .toggle x y v 0x0000000000000021 (by decide)

theorem writePixelOr (x y : Int) (v : Bool) : Statement (.writePixelOr x y v) := by
  simpa [Statement, opcodeRows, Instr.mnemonic, encode, encodeFields] using
    pixelFields_fit _ .or x y v 0x0000000000000031 (by decide)

theorem writePixelNor (x y : Int) (v : Bool) : Statement (.writePixelNor x y v) := by
  simpa [Statement, opcodeRows, Instr.mnemonic, encode, encodeFields] using
    pixelFields_fit _ .nor x y v 0x0000000000000041 (by decide)

theorem readPixel (x y : Int) : Statement (.readPixel x y) := by
  simp only [Statement, opcodeRows, Instr.mnemonic, encode, encodeFields]
  rw [show (0x0000000000000002 : Word) = wordOf ⟨2, 0, 0, 0, 0, 0, 0⟩ from by decide,
    show (0xFFFF00000000FFFF : Word) = wordOf ⟨0xF, 7, 1, 0xFF, 0, 0, 0xFFFF⟩ from by decide]
  simp [fits_wordOf, Fields.and]

theorem fill (normal : Bool) : Statement (.fill normal) := by
  cases normal <;> (unfold Statement; decide)

theorem readByte (a : Nat) : Statement (.readByte a) := by
  simp only [Statement, opcodeRows, Instr.mnemonic, encode, encodeFields]
  rw [show (0x0000000000000004 : Word) = wordOf ⟨4, 0, 0, 0, 0, 0, 0⟩ from by decide,
    show (0xFFFFFFFF0000FFFF : Word) = wordOf ⟨0xF, 7, 1, 0xFF, 0, 0xFFFF, 0xFFFF⟩ from by decide]
  simp [fits_wordOf, Fields.and]

theorem writeByte (a : Nat) (d : Byte) : Statement (.writeByte a d) := by
  simp only [Statement, opcodeRows, Instr.mnemonic, encode, encodeFields]
  rw [show (0x0000000000000005 : Word) = wordOf ⟨5, 0, 0, 0, 0, 0, 0⟩ from by decide,
    show (0xFFFFFFFF000000FF : Word) = wordOf ⟨0xF, 7, 1, 0, 0, 0xFFFF, 0xFFFF⟩ from by decide]
  simp [fits_wordOf, Fields.and]

theorem scanStep : Statement .scanStep := by
  unfold Statement
  decide

end Sys2Proof.Laws.RowMatch
end

