-- ==== Sys2Proof/Laws/Step.lean ====
section
/-! SUPPORT. What a step can do, said once. -/

namespace Sys2Proof.Machine

/-- The three cases of a step: nothing presented, a command, a reserved word. -/
theorem step_cases (s : State) :
    (s.port = [] ∧ step s = .next s) ∨
    ∃ input rest, s.port = input :: rest ∧
      ((∃ i, decode input.word = .ok i ∧ step s = exec i (s.taking input rest)) ∨
        ∃ e, decode input.word = .error e ∧ step s = .refused (.reservedEncoding input.word)) := by
  unfold step
  cases hp : s.port with
  | nil => exact .inl ⟨rfl, rfl⟩
  | cons input rest =>
    refine .inr ⟨input, rest, rfl, ?_⟩
    simp only [commandOf]
    cases hd : decode input.word with
    | ok i => exact .inl ⟨i, rfl, rfl⟩
    | error e => exact .inr ⟨e, rfl, rfl⟩

theorem advance_of_next {s t : State} (h : step s = .next t) : advance s = t := by
  simp only [advance, h]

theorem advance_of_refused {s : State} {r : Refusal} (h : step s = .refused r) : advance s = s.afterRefusal r := by
  simp only [advance, h]

end Sys2Proof.Machine
end

