-- ==== Sys2Proof/Tests/Slice0.lean ====
section
/-! SUPPORT. Tests of the model against the spec's own vectors (95_test_vectors.md) and examples, the smoke test of
WellFormed, and for every statement with hypotheses a concrete case that meets them. -/

open Sys2Proof Sys2Proof.Machine

namespace Sys2Proof.Tests

/-! ## Helpers -/

/-- The tilings the spec's vectors use beside one panel. -/
def wide : Geometry := ⟨2, 1, by decide, by decide, by decide⟩

/-- Two by two panels. -/
def square : Geometry := ⟨2, 2, by decide, by decide, by decide⟩

/-- Three panels in a row. -/
def row3 : Geometry := ⟨3, 1, by decide, by decide, by decide⟩

/-- Three panels in a column. -/
def column3 : Geometry := ⟨1, 3, by decide, by decide, by decide⟩

/-- The largest number of panels R5 admits. -/
def largest : Geometry := ⟨1023, 1, by decide, by decide, by decide⟩

/-- A freshly reset block of one panel with some bytes set. -/
def holding (fb : Memory) : State := { State.reset with fb := fb }

/-- One panel whose byte `k` holds `k`. -/
def counting : State := holding ((List.range 64).map fun k => (k, BitVec.ofNat 8 k))

/-- A block in which a word is presented with a level of `bus_free`. -/
def presenting (s : State) (w : Word) (level : Bool) : State := { s with port := [⟨w, level⟩] }

/-- The next state of an outcome. -/
def nextOf : Host.Outcome State Fault Refusal → Option State
  | .next t => some t
  | .fault _ => none
  | .refused _ => none

/-- The refusal of an outcome. -/
def refusalOf : Host.Outcome State Fault Refusal → Option Refusal
  | .next _ => none
  | .fault _ => none
  | .refused r => some r

/-- The framebuffer of an outcome's next state. -/
def fbOf (o : Host.Outcome State Fault Refusal) : Option Memory := (nextOf o).map (·.fb)

/-- The responses of an outcome's next state. -/
def responsesOf (o : Host.Outcome State Fault Refusal) : Option (List Byte) := (nextOf o).map (·.responses)

/-! ## WellFormed: an ill-formed term for each check (R47, R48) -/

theorem test_wellFormed_writePixelNormal :
    (Instr.writePixelNormal (-32769) 0 true).wellFormed = false ∧ (Instr.writePixelNormal 32768 0 true).wellFormed = false ∧
    (Instr.writePixelNormal 0 (-32769) true).wellFormed = false ∧ (Instr.writePixelNormal 0 32768 true).wellFormed = false ∧
    (Instr.writePixelNormal (-32768) 32767 true).wellFormed = true := by decide

theorem test_wellFormed_writePixelInverse :
    (Instr.writePixelInverse (-32769) 0 true).wellFormed = false ∧ (Instr.writePixelInverse 32768 0 true).wellFormed = false ∧
    (Instr.writePixelInverse 0 (-32769) true).wellFormed = false ∧ (Instr.writePixelInverse 0 32768 true).wellFormed = false ∧
    (Instr.writePixelInverse (-32768) 32767 true).wellFormed = true := by decide

theorem test_wellFormed_writePixelToggle :
    (Instr.writePixelToggle (-32769) 0 true).wellFormed = false ∧ (Instr.writePixelToggle 32768 0 true).wellFormed = false ∧
    (Instr.writePixelToggle 0 (-32769) true).wellFormed = false ∧ (Instr.writePixelToggle 0 32768 true).wellFormed = false ∧
    (Instr.writePixelToggle (-32768) 32767 true).wellFormed = true := by decide

theorem test_wellFormed_writePixelOr :
    (Instr.writePixelOr (-32769) 0 true).wellFormed = false ∧ (Instr.writePixelOr 32768 0 true).wellFormed = false ∧
    (Instr.writePixelOr 0 (-32769) true).wellFormed = false ∧ (Instr.writePixelOr 0 32768 true).wellFormed = false ∧
    (Instr.writePixelOr (-32768) 32767 true).wellFormed = true := by decide

theorem test_wellFormed_writePixelNor :
    (Instr.writePixelNor (-32769) 0 true).wellFormed = false ∧ (Instr.writePixelNor 32768 0 true).wellFormed = false ∧
    (Instr.writePixelNor 0 (-32769) true).wellFormed = false ∧ (Instr.writePixelNor 0 32768 true).wellFormed = false ∧
    (Instr.writePixelNor (-32768) 32767 true).wellFormed = true := by decide

theorem test_wellFormed_readPixel :
    (Instr.readPixel (-32769) 0).wellFormed = false ∧ (Instr.readPixel 32768 0).wellFormed = false ∧
    (Instr.readPixel 0 (-32769)).wellFormed = false ∧ (Instr.readPixel 0 32768).wellFormed = false ∧
    (Instr.readPixel (-32768) 32767).wellFormed = true := by decide

theorem test_wellFormed_readByte :
    (Instr.readByte 65536).wellFormed = false ∧ (Instr.readByte 65535).wellFormed = true := by decide

theorem test_wellFormed_writeByte :
    (Instr.writeByte 65536 0).wellFormed = false ∧ (Instr.writeByte 65535 0).wellFormed = true := by decide

theorem test_wellFormed_without_operands :
    Instr.nop.wellFormed = true ∧ (Instr.fill true).wellFormed = true ∧ Instr.scanStep.wellFormed = true := by decide

/-! ## Decoding: a word of every constructor, from the spec's encodings -/

/-- V40. -/
theorem test_decode_nop :
    decode 0x0000000000000000 = .ok .nop ∧ encode .nop = 0x0000000000000000 := by decide

/-- V41. -/
theorem test_decode_writePixelNormal :
    decode 0x0000000000000081 = .ok (.writePixelNormal 0 0 true) ∧ encode (.writePixelNormal 0 0 true) = 0x0000000000000081 := by decide

/-- P3 step 2. -/
theorem test_decode_writePixelInverse :
    decode 0x0000000000270011 = .ok (.writePixelInverse 39 0 false) ∧ encode (.writePixelInverse 39 0 false) = 0x0000000000270011 := by decide

/-- P1 step 3. -/
theorem test_decode_writePixelToggle :
    decode 0x00000005000D00A1 = .ok (.writePixelToggle 13 5 true) ∧ encode (.writePixelToggle 13 5 true) = 0x00000005000D00A1 := by decide

/-- P1 step 4. -/
theorem test_decode_writePixelOr :
    decode 0x0000000F001F00B1 = .ok (.writePixelOr 31 15 true) ∧ encode (.writePixelOr 31 15 true) = 0x0000000F001F00B1 := by decide

/-- P3 step 3. -/
theorem test_decode_writePixelNor :
    decode 0x00000000002000C1 = .ok (.writePixelNor 32 0 true) ∧ encode (.writePixelNor 32 0 true) = 0x00000000002000C1 := by decide

/-- V25. -/
theorem test_decode_readPixel :
    decode 0x0000FFFFFFFF0002 = .ok (.readPixel (-1) (-1)) ∧ encode (.readPixel (-1) (-1)) = 0x0000FFFFFFFF0002 := by decide

/-- V30. -/
theorem test_decode_fill :
    decode 0x0000000000000083 = .ok (.fill true) ∧ encode (.fill true) = 0x0000000000000083 := by decide

/-- V33. -/
theorem test_decode_readByte :
    decode 0x00000000003F0004 = .ok (.readByte 63) ∧ encode (.readByte 63) = 0x00000000003F0004 := by decide

/-- P2 step 3. -/
theorem test_decode_writeByte :
    decode 0x0000000000303C05 = .ok (.writeByte 48 0x3C) ∧ encode (.writeByte 48 0x3C) = 0x0000000000303C05 := by decide

/-- P4. -/
theorem test_decode_scanStep :
    decode 0x0000000000000006 = .ok .scanStep ∧ encode .scanStep = 0x0000000000000006 := by decide

/-- R47: the fields are signed. -/
theorem test_decode_most_negative :
    decode 0x0000800080000021 = .ok (.writePixelToggle (-32768) (-32768) false) := by decide

/-- V42 to V49. -/
theorem test_decode_reserved :
    decode 0x00000002000200D1 = .error (.mode 5) ∧ decode 0x0000000000000007 = .error (.opcode 7) ∧
    decode 0x0001000000000006 = .error .nonzeroField ∧ decode 0x0000000100010181 = .error .nonzeroField ∧
    decode 0x0000000000000082 = .error .nonzeroField ∧ decode 0x0000000000010003 = .error .nonzeroField ∧
    decode 0x0000000000000086 = .error .nonzeroField ∧ decode 0x000000000000000F = .error (.opcode 15) := by decide

/-- P1 step 2 and V43. -/
theorem test_decodeTableWord :
    decodeTableWord 64 0x00000005000D0081 = some (.writePixelNormal 13 5 true) ∧
    decodeTableWord 64 0x0000000000000007 = none := by decide

/-! ## The assembler (R56; the words are those of 95_test_vectors.md) -/

/-- P1 steps 2 and 3, V25. -/
theorem test_assemble_pixel :
    assembleText "wpix.normal 13, 5, 1" = some 0x00000005000D0081 ∧
    assembleText "pflip 13, 5" = some 0x00000005000D00A1 ∧ assembleText "rpix -1, -1" = some 0x0000FFFFFFFF0002 := by decide

/-- P2 step 3, V30, P4. -/
theorem test_assemble_byte :
    assembleText "wbyte 48, 0x3C" = some 0x0000000000303C05 ∧ assembleText "clear" = some 0x0000000000000083 ∧
    assembleText "scan" = some 0x0000000000000006 := by decide

/-- R56, the operands the assembler rejects. -/
theorem test_assemble_rejects :
    assembleText "rpix 32768, 0" = none ∧ assembleText "rbyte 65536" = none ∧ assembleText "wbyte 0, 256" = none ∧
    assembleText "fill 2" = none := by decide

/-! ## One step of each command -/

/-- R69's example. -/
theorem test_nop_changes_nothing :
    nextOf (exec .nop counting) = some counting := by decide

/-- P1 step 2. -/
theorem test_normal_lights :
    fbOf (exec (.writePixelNormal 13 5 true) State.reset) = some [(21, 0xFB)] := by decide

/-- R61's example. -/
theorem test_normal_unlights :
    fbOf (exec (.writePixelNormal 13 5 false) (holding [(21, 0xFB)])) = some [] := by decide

/-- P3 step 2. -/
theorem test_inverse_lights :
    fbOf (exec (.writePixelInverse 39 0 false) { State.resetWith wide with fb := [(4, 0x7F)] }) = some [(4, 0x7E)] := by decide

/-- R62's example. -/
theorem test_inverse_unlights :
    fbOf (exec (.writePixelInverse 0 0 true) (holding [(0, 0x7F)])) = some [] := by decide

/-- R63's example. -/
theorem test_toggle_lights :
    fbOf (exec (.writePixelToggle 7 0 true) State.reset) = some [(0, 0xFE)] := by decide

/-- P1 step 3. -/
theorem test_toggle_unlights :
    fbOf (exec (.writePixelToggle 13 5 true) (holding [(21, 0xFB)])) = some [] := by decide

/-- P1 step 4. -/
theorem test_or_lights :
    fbOf (exec (.writePixelOr 31 15 true) (holding [(0, 0x7F)])) = some [(0, 0x7F), (63, 0xFE)] := by decide

/-- R64's example. -/
theorem test_or_never_unlights :
    fbOf (exec (.writePixelOr 8 0 false) (holding [(1, 0x7F)])) = some [(1, 0x7F)] := by decide

/-- P3 step 3. -/
theorem test_nor_unlights :
    fbOf (exec (.writePixelNor 32 0 true) { State.resetWith wide with fb := [(4, 0x7E)] }) = some [(4, 0xFE)] := by decide

/-- R65's example. -/
theorem test_nor_never_lights :
    fbOf (exec (.writePixelNor 0 0 true) State.reset) = some [] := by decide

/-- V22, V23. -/
theorem test_readPixel_on_screen :
    responsesOf (exec (.readPixel 0 0) State.reset) = some [0x03] ∧
    responsesOf (exec (.readPixel 0 0) (holding [(0, 0x7F)])) = some [0x01] := by decide

/-- V24, V25. -/
theorem test_readPixel_off_screen :
    responsesOf (exec (.readPixel 32 0) State.reset) = some [0x00] ∧
    responsesOf (exec (.readPixel (-1) (-1)) State.reset) = some [0x00] := by decide

/-- V31. -/
theorem test_fill_lights :
    (nextOf (exec (.fill false) State.reset)).map (fun t => (t.byte 0, t.byte 63, t.fb.length)) = some (0x00, 0x00, 64) := by decide

/-- V30, V37. -/
theorem test_fill_leaves_the_cursor :
    nextOf (exec (.fill true) { counting with phase := 2 }) = some { State.reset with phase := 2 } := by decide

/-- R72: the last legal address. -/
theorem test_readByte_last :
    responsesOf (exec (.readByte 63) counting) = some [0x3F] := by decide

/-- V34. -/
theorem test_readByte_outside :
    refusalOf (exec (.readByte 64) State.reset) = some (.addressOutOfRange 64) := by decide

/-- P2 step 6's store. -/
theorem test_writeByte :
    fbOf (exec (.writeByte 4 0x81) (holding [(0, 0xA5), (48, 0x3C)])) = some [(0, 0xA5), (4, 0x81), (48, 0x3C)] := by decide

/-- V35. -/
theorem test_writeByte_outside :
    refusalOf (exec (.writeByte 65535 0) State.reset) = some (.addressOutOfRange 65535) := by decide

/-- V50, V57. -/
theorem test_scan_free :
    (nextOf (exec .scanStep counting)).map (fun t => (t.latched, t.events.drop 16, t.phase)) =
    some (some [48, 32, 16, 0, 49, 33, 17, 1, 50, 34, 18, 2, 51, 35, 19, 3],
      [.oe false, .latch, .rowSel 0, .oe true], 1) := by decide

/-- V53. -/
theorem test_scan_wraps :
    (nextOf (exec .scanStep { counting with phase := 3 })).map (fun t => (t.events.take 5, t.rowSel, t.rowOe, t.phase)) =
    some ([.tx 60, .tx 44, .tx 28, .tx 12, .tx 61], 3, true, 0) := by decide

/-! ## Steps, refusals, reset -/

/-- P1 step 2, through the port. -/
theorem test_step_runs_the_word :
    nextOf (step (presenting State.reset 0x00000005000D0081 true)) = some (holding [(21, 0xFB)]) := by decide

/-- V56. -/
theorem test_step_skips_on_a_busy_bus :
    nextOf (step (presenting counting 0x0000000000000006 false)) = some { counting with busFree := false } := by decide

/-- P5 step 2. -/
theorem test_step_refuses_reserved :
    refusalOf (step (presenting State.reset 0x00000002000200D1 true)) = some (.reservedEncoding 0x00000002000200D1) := by decide

/-- P5 step 5. -/
theorem test_advance_after_refusal :
    advance (presenting (holding [(4, 0xBF)]) 0x0000000100010101 true) =
    { holding [(4, 0xBF)] with refusals := [.reservedEncoding 0x0000000100010101] } := by decide

/-- V32's write. -/
theorem test_withFetchWord_runs :
    nextOf (step (State.reset.withFetchWord 64 0x0000000000000F05)) = some (holding [(0, 0x0F)]) := by decide

/-- The canonical form and what it shuts out. -/
theorem test_no_write_back_of_unlisted :
    (holding [(0, 0x7F)]).fb.wf = true ∧ Memory.wf [(0, 0xFF)] = false ∧ Memory.wf [(1, 0), (0, 0)] = false ∧
    Memory.wf [(0, 0), (0, 1)] = false := by decide

/-! ## Witnesses: the hypotheses of each statement, met -/

theorem witness_EncodedCommandDecodesToItself :
    (Instr.writePixelNor (-32768) 32767 true).wellFormed = true ∧ (Instr.writeByte 65535 0xFF).wellFormed = true := by decide

theorem witness_DecodedWordEncodesBack :
    decode 0x00007FFF800000C1 = .ok (.writePixelNor (-32768) 32767 true) := by decide

theorem witness_WordIsCommandExactlyWhenOneRowMatches :
    decode 0xFFFFFFFF = .error (.opcode 15) ∧ decode 0x00000000FFFF0004 = .ok (.readByte 65535) ∧
    ∃ r ∈ opcodeRows, (0x00000000FFFF0004 : Word) &&& r.mask = r.pattern := by decide

theorem witness_ReservedWordsAreRefused :
    (presenting State.reset 7 true).port = [⟨7, true⟩] ∧ decode 7 = .error (.opcode 7) ∧ decode 0xF = .error (.opcode 15) ∧
    decode 0x51 = .error (.mode 5) ∧ decode 0x71 = .error (.mode 7) ∧ decode 0x10 = .error .nonzeroField ∧
    decode 0x80 = .error .nonzeroField ∧ decode 0x101 = .error .nonzeroField ∧ decode 0x10006 = .error .nonzeroField ∧
    decode 0x100000004 = .error .nonzeroField ∧ decode 0x8000000000000001 = .error .nonzeroField := by decide

theorem witness_AssembledLineDecodesToItsCommand :
    (AsmLine.wpix .nor (-32768) 32767 1).assemble = some 0x00007FFF800000C1 := by decide

theorem witness_StepRunsTheDecodedCommand :
    (presenting State.reset 6 false).port = [⟨6, false⟩] ∧ decode 6 = .ok .scanStep := by decide

theorem witness_StepWithoutCommandChangesNothing :
    State.reset.port = [] := by decide

theorem witness_PresentedWordRunsNext :
    decode 6 = .ok .scanStep ∧ (presenting State.reset 6 true).port ≠ [] := by decide

theorem witness_StepRefusesForExactlyTwoReasons :
    refusalOf (step (presenting State.reset 7 true)) = some (.reservedEncoding 7) ∧
    refusalOf (step (presenting State.reset 0x0000000000400004 true)) = some (.addressOutOfRange 64) ∧
    (State.reset.markRefused (.addressOutOfRange 64)).refusalMark = true := by decide

theorem witness_EveryCommandIsDoneOrRefused :
    (presenting State.reset 0x00000000003F0004 true).port = [⟨0x00000000003F0004, true⟩] ∧
    decode 0x00000000003F0004 = .ok (.readByte 63) ∧ 63 < State.reset.geom.fbBytes ∧
    (presenting State.reset 0x0000000000400004 true).port = [⟨0x0000000000400004, true⟩] ∧
    decode 0x0000000000400004 = .ok (.readByte 64) ∧ State.reset.geom.fbBytes ≤ 64 ∧
    (presenting State.reset 7 true).port = [⟨7, true⟩] ∧ decode 7 = .error (.opcode 7) := by decide

theorem witness_NoRefusalMeansNoRefusedStep :
    State.reset.noRefusal ∧ (advance (presenting State.reset 6 true)).noRefusal ∧
    ¬(advance (presenting State.reset 7 true)).noRefusal := by
  refine ⟨rfl, rfl, fun h => ?_⟩
  exact absurd (show (advance (presenting State.reset 7 true)).refusalMark = false from h) (by decide)

theorem witness_ResetStateIsAsSpecified :
    63 < Geometry.single.fbBytes ∧ 65471 < largest.fbBytes := by decide

theorem witness_AddresserFollowsTheFormula :
    (0 : Int) ≤ 63 ∧ (63 : Int) < 32 * (square.dw : Int) ∧ (0 : Int) ≤ 31 ∧ (31 : Int) < 16 * (square.dh : Int) := by decide

theorem witness_OffScreenPixelCommandsChangeNothing :
    addresser Geometry.single 32 0 = none ∧ addresser Geometry.single 0 16 = none ∧
    addresser Geometry.single (-1) 0 = none ∧ addresser Geometry.single 0 (-32768) = none ∧
    addresser State.reset.geom 32 0 = none := by decide

theorem witness_EveryFramebufferBitIsOnePixel :
    addresser square 63 31 = some (255, 0x01) ∧ 255 < square.fbBytes ∧ (7 : Nat) < 8 := by decide

theorem witness_LayoutAndItsInverse :
    3 < square.dt ∧ (31 : Nat) < 32 ∧ (15 : Nat) < 16 ∧ 255 < square.fbBytes ∧ (7 : Nat) < 8 := by decide

theorem witness_AddresserVectors :
    (Geometry.single.dw = 1 ∧ Geometry.single.dh = 1) ∧ (square.dw = 2 ∧ square.dh = 2) ∧ (row3.dw = 3 ∧ row3.dh = 1) ∧
    column3.dw = 1 ∧ column3.dh = 3 := by decide

theorem witness_WritePixelNormalLightsOrUnlights :
    (0x0000000F001F0081 : Word) &&& 0xFFFF00000000FF7F = 0x01 ∧ addresser State.reset.geom 32 0 = none ∧
    addresser State.reset.geom 31 15 = some (63, 0x01) ∧ State.reset.fb.wf = true ∧
    (nextOf (exec (.writePixelNormal 31 15 true) State.reset)).isSome = true ∧ pixelBit State.reset 0 0 = some true ∧
    pixelBit (holding [(0, 0x7F)]) 0 0 = some false := by decide

theorem witness_WritePixelInverseUnlightsOrLights :
    (0x0000000F001F0091 : Word) &&& 0xFFFF00000000FF7F = 0x11 ∧ addresser State.reset.geom 32 0 = none ∧
    addresser State.reset.geom 31 15 = some (63, 0x01) ∧ State.reset.fb.wf = true ∧
    (nextOf (exec (.writePixelInverse 31 15 true) State.reset)).isSome = true ∧ pixelBit State.reset 0 0 = some true ∧
    pixelBit (holding [(0, 0x7F)]) 0 0 = some false := by decide

theorem witness_WritePixelToggleInverts :
    (0x0000000F001F00A1 : Word) &&& 0xFFFF00000000FF7F = 0x21 ∧ addresser State.reset.geom 32 0 = none ∧
    addresser State.reset.geom 31 15 = some (63, 0x01) ∧ State.reset.fb.wf = true ∧
    (nextOf (exec (.writePixelToggle 31 15 true) State.reset)).isSome = true ∧ pixelBit State.reset 0 0 = some true ∧
    pixelBit (holding [(0, 0x7F)]) 0 0 = some false := by decide

theorem witness_WritePixelOrOnlyLights :
    (0x0000000F001F00B1 : Word) &&& 0xFFFF00000000FF7F = 0x31 ∧ addresser State.reset.geom 32 0 = none ∧
    addresser State.reset.geom 31 15 = some (63, 0x01) ∧ State.reset.fb.wf = true ∧
    (nextOf (exec (.writePixelOr 31 15 true) State.reset)).isSome = true ∧ pixelBit State.reset 0 0 = some true ∧
    pixelBit (holding [(0, 0x7F)]) 0 0 = some false := by decide

theorem witness_WritePixelNorOnlyUnlights :
    (0x0000000F001F00C1 : Word) &&& 0xFFFF00000000FF7F = 0x41 ∧ addresser State.reset.geom 32 0 = none ∧
    addresser State.reset.geom 31 15 = some (63, 0x01) ∧ State.reset.fb.wf = true ∧
    (nextOf (exec (.writePixelNor 31 15 true) State.reset)).isSome = true ∧ pixelBit State.reset 0 0 = some true ∧
    pixelBit (holding [(0, 0x7F)]) 0 0 = some false := by decide

theorem witness_PixelWriteChangesExactlyItsPixel :
    State.reset.fb.wf = true ∧ pixelBit State.reset 31 15 = some true ∧
    (holding [(63, 0xFE)]).fb.wf = true ∧ pixelBit (holding [(63, 0xFE)]) 31 15 = some false := by decide

theorem witness_PixelWriteTwiceIsOnceExceptToggle :
    State.reset.fb.wf = true ∧ (Mode.toggle, false) ≠ (Mode.toggle, true) ∧ (Mode.or, true) ≠ (Mode.toggle, true) ∧
    (nextOf (exec (.writePixel .or 31 15 true) State.reset)).isSome = true := by decide

theorem witness_ModesThatAreEqualFunctions :
    (holding [(63, 0xFE)]).fb.wf = true ∧ (addresser (holding [(63, 0xFE)]).geom 31 15).isSome = true := by decide

theorem witness_ReadPixelRespondsValidAndBit :
    (0x0000FFFFFFFF0002 : Word) &&& 0xFFFF00000000FFFF = 0x2 ∧ addresser State.reset.geom (-1) (-1) = none ∧
    addresser State.reset.geom 31 15 = some (63, 0x01) := by decide

theorem witness_OnlyTheReadsRespond :
    (nextOf (exec (.readPixel 32 0) State.reset)).isSome = true ∧ (nextOf (exec (.readByte 63) State.reset)).isSome = true ∧
    (nextOf (exec .nop State.reset)).isSome = true := by decide

theorem witness_NopDoesNothing :
    (0x0 : Word) &&& 0xFFFFFFFFFFFFFFFF = 0x0 := by decide

theorem witness_FillWritesEveryByte :
    (0x83 : Word) &&& 0xFFFFFFFFFFFFFF7F = 0x3 ∧ 63 < State.reset.geom.fbBytes := by decide

theorem witness_ByteCommandsRefuseOutsideTheFramebuffer :
    State.reset.geom.fbBytes ≤ 64 ∧ decode 0x0000000000400004 = .ok (.readByte 64) ∧
    decode 0x0000000000400005 = .ok (.writeByte 64 0) ∧
    (presenting State.reset 0x0000000000400004 true).port = [⟨0x0000000000400004, true⟩] := by decide

theorem witness_ReadByteRespondsTheStoredByte :
    (0xFFFF0004 : Word) &&& 0xFFFFFFFF0000FFFF = 0x4 ∧ 63 < State.reset.geom.fbBytes ∧ State.reset.geom.fbBytes ≤ 64 := by decide

theorem witness_WriteByteStoresTheData :
    (0xFFFFFF05 : Word) &&& 0xFFFFFFFF000000FF = 0x5 ∧ 63 < State.reset.geom.fbBytes ∧ State.reset.geom.fbBytes ≤ 64 ∧
    State.reset.fb.wf = true := by decide

theorem witness_ByteAndPixelViewsAgree :
    addresser State.reset.geom 31 15 = some (63, 0x01) := by decide

theorem witness_FillEqualsWritingEveryByte :
    counting.fb.wf = true ∧ counting.fb.below counting.geom.fbBytes = true := by decide

theorem witness_ReadAfterWriteSeesTheWrite :
    counting.fb.wf = true ∧ 0 < counting.geom.fbBytes ∧ 63 < counting.geom.fbBytes := by decide

theorem witness_SideEffectsAndIdempotence :
    (nextOf (exec (.readPixel 0 0) State.reset)).isSome = true ∧ (nextOf (exec (.readByte 63) State.reset)).isSome = true ∧
    (nextOf (exec (.fill false) State.reset)).isSome = true ∧ (nextOf (exec (.writeByte 63 0) State.reset)).isSome = true ∧
    State.reset.fb.wf = true ∧ (addresser State.reset.geom 31 15).isSome = true ∧
    (nextOf (exec (.writePixelToggle 31 15 true) State.reset)).isSome = true ∧ State.reset.busFree = true ∧
    (nextOf (exec .scanStep State.reset)).isSome = true := by decide

theorem witness_BusyBusSkipsTheScan :
    ({ counting with busFree := false } : State).busFree = false := by decide

theorem witness_BusLevelComesWithTheCommand :
    (presenting counting 0x0000000000000006 false).port = [⟨0x0000000000000006, false⟩] := by decide

theorem witness_FreeBusScansOneRowGroup :
    (0x6 : Word) &&& 0xFFFFFFFFFFFFFFFF = 0x6 ∧ State.reset.busFree = true ∧
    ({ counting with busFree := false } : State).busFree = false := by decide

theorem witness_ScanSendsEachByteOfItsRowsOnce :
    0 < 16 * State.reset.geom.dt ∧ 15 < 16 * State.reset.geom.dt := by decide

theorem witness_ScanSelectsTheShiftedGroupAndAdvances :
    State.reset.busFree = true ∧ 0 ∈ scanAddrs State.reset.geom State.reset.phase ∧
    (nextOf (exec .scanStep { State.reset with busFree := false })).isSome = true ∧
    (nextOf (exec (.writeByte 63 0) State.reset)).isSome = true := by decide

theorem witness_OnlyABusFreeScanTouchesTheOutputs :
    (nextOf (exec .scanStep { State.reset with busFree := false })).isSome = true ∧
    (nextOf (exec (.fill false) State.reset)).isSome = true ∧ ¬((Instr.fill false) = .scanStep ∧ State.reset.busFree = true) := by decide

theorem witness_OnlyTheWritesTouchTheFramebuffer :
    (nextOf (exec .scanStep State.reset)).isSome = true ∧ (nextOf (exec (.writeByte 63 0) State.reset)).isSome = true := by decide

theorem witness_EventsDriveTheOutputRegisters :
    (nextOf (exec .scanStep State.reset)).isSome = true ∧ (nextOf (exec .nop State.reset)).isSome = true := by decide

theorem witness_LitRowsAreTheSelectedGroup :
    ({ State.reset with rowOe := true, rowSel := 3 } : State).rowLit 15 = true ∧ State.reset.rowOe = false ∧
    ({ State.reset with rowOe := true, rowSel := 3 } : State).rowLit 16 = false := by decide

theorem witness_FourFreeScansMakeARound :
    [true, true, true, true].count true = 4 ∧ [false, true, false, true, true, false, true, false].count true = 4 := by decide

theorem witness_ScanAfterWriteTransmitsTheWrite :
    State.reset.fb.wf = true ∧ State.reset.busFree = true ∧ 51 < State.reset.geom.fbBytes ∧
    51 / State.reset.geom.stripRowBytes % 4 = State.reset.phase.toNat := by decide

theorem witness_OutputRegistersAreReadByNoCommand :
    (nextOf (exec .scanStep State.reset)).isSome = true ∧ (nextOf (exec (.fill false) State.reset)).isSome = true ∧
    (Instr.fill false) ≠ .scanStep := by decide

/-- The reset state meets the invariant (also the hypotheses of DarkUntilTheFirstFreeScan). -/
theorem witness_DarkUntilTheFirstFreeScan :
    State.reset.Inv ∧ State.reset.latched = none ∧ State.reset.busFree = true :=
  ⟨⟨rfl, rfl, fun _ h => (nomatch h), fun _ => ⟨rfl, rfl, rfl⟩, fun h => absurd rfl h, rfl⟩, rfl, rfl⟩

/-- A state after a bus-free scan meets the invariant, and a step from it answers a next state. -/
theorem witness_EveryStepKeepsTheInvariant :
    (scanFree State.reset).Inv ∧ (scanFree State.reset).latched ≠ none ∧
      (nextOf (step (presenting (scanFree State.reset) 0x0000000000000006 true))).isSome = true := by
  refine ⟨⟨rfl, rfl, ?_, ?_, fun _ => ⟨rfl, rfl⟩, by decide⟩, by decide, by decide⟩
  · intro bytes h
    have h' : bytes = scanBytes State.reset := (Option.some.inj h).symm
    subst h'
    decide
  · intro h
    exact absurd h (by decide)

end Sys2Proof.Tests
end

namespace Sys2Proof.Machine

/-! ## What a done command and a refused one record (R10) -/

/-- Of the two histories and the refusal record, a done command only appends to the histories: at most one response and
a list of events (R10, R23, R50). -/
theorem exec_next_records {i : Instr} {s t : State} (h : exec i s = .next t) :
    ∃ (response : Option Byte) (es : List Event),
      t.responses = s.responses ++ response.toList ∧ t.events = s.events ++ es ∧ t.refusals = s.refusals := by
  rcases exec_next_cases h with ⟨-, rfl⟩ | ⟨mode, x, y, v, -, rfl⟩ | ⟨x, y, -, rfl⟩ | ⟨normal, -, rfl⟩ |
    ⟨a, -, -, rfl⟩ | ⟨a, d, -, -, rfl⟩ | ⟨-, rfl⟩
  · exact ⟨none, [], by simp⟩
  · exact ⟨none, [], by simp⟩
  · exact ⟨some (pixelResponse (pixelBit s x y)), [], by simp⟩
  · exact ⟨none, [], by simp⟩
  · exact ⟨some (s.byte a), [], by simp⟩
  · exact ⟨none, [], by simp⟩
  · cases s.busFree with
    | true => exact ⟨none, _, by simp, scanFree_events s, scanFree_refusals s⟩
    | false => exact ⟨none, [], by simp⟩

/-- A byte command whose address lies outside the framebuffer is refused (R71). -/
theorem exec_byteCommand_outside {i : Instr} {s : State} {a : Nat} (hi : i = .readByte a ∨ ∃ d, i = .writeByte a d)
    (ha : s.geom.fbBytes ≤ a) : exec i s = .refused (.addressOutOfRange a) := by
  rcases hi with rfl | ⟨d, rfl⟩
  · exact if_pos ha
  · exact if_pos ha

/-- Any other command is done: the block has no fault (R10, R71). -/
theorem exec_done_of_not_outside {i : Instr} {s : State}
    (h : ∀ a, i = .readByte a ∨ (∃ d, i = .writeByte a d) → a < s.geom.fbBytes) : ∃ t, exec i s = .next t := by
  cases he : exec i s with
  | next t => exact ⟨t, rfl⟩
  | fault f => exact nomatch f
  | refused r =>
    obtain ⟨a, hi, ha, -⟩ := exec_refused_cases he
    exact absurd (h a hi) (by omega)

/-! ## What a step does with the command presented (R8, R10) -/

theorem step_of_command {s : State} {input : PortInput} {rest : List PortInput} {i : Instr}
    (hp : s.port = input :: rest) (hd : decode input.word = .ok i) : step s = exec i (s.taking input rest) := by
  simp only [step, hp, commandOf, hd]

theorem step_of_reserved {s : State} {input : PortInput} {rest : List PortInput} {e : Reserved}
    (hp : s.port = input :: rest) (hd : decode input.word = .error e) :
    step s = .refused (.reservedEncoding input.word) := by
  simp only [step, hp, commandOf, hd]

theorem step_next_refusals {s t : State} (h : step s = .next t) : t.refusals = s.refusals := by
  rcases step_cases s with ⟨-, hs⟩ | ⟨input, rest, -, ⟨i, -, hs⟩ | ⟨e, -, hs⟩⟩ <;> rw [hs] at h
  · cases h
    rfl
  · obtain ⟨-, -, -, -, href⟩ := exec_next_records h
    exact href
  · cases h

/-! ## The refusal mark stays set (R10, R88) -/

theorem refusalMark_iff (s : State) : s.refusalMark = true ↔ s.refusals ≠ [] := by
  simp [State.refusalMark]

@[simp] theorem refusalMark_afterRefusal (s : State) (r : Refusal) : (s.afterRefusal r).refusalMark = true := by
  simp [refusalMark_iff]

theorem advance_keeps_refusalMark {s : State} (h : s.refusalMark = true) : (advance s).refusalMark = true := by
  cases hs : step s with
  | next t => rwa [advance_of_next hs, refusalMark_iff, step_next_refusals hs, ← refusalMark_iff]
  | fault f => exact nomatch f
  | refused r =>
    rw [advance_of_refused hs, refusalMark_afterRefusal]

theorem advanceN_keeps_refusalMark (k : Nat) {s : State} (h : s.refusalMark = true) :
    (advanceN k s).refusalMark = true := by
  induction k generalizing s with
  | zero => exact h
  | succ k ih => exact ih (advance_keeps_refusalMark h)

theorem afterRefusal_of_port {s : State} {input : PortInput} {rest : List PortInput} (hp : s.port = input :: rest)
    (r : Refusal) : s.afterRefusal r = { s with refusals := s.refusals ++ [r], port := rest } := by
  simp only [State.afterRefusal, State.markRefused, hp, List.tail_cons]

/-! ## The obligations -/

/-- Settles O13: a word that decodes runs `exec`, which is done unless it is a byte command outside the framebuffer; a
refused step sets the mark, and `advanceN` keeps it by induction on the number of steps. -/
theorem everyCommandIsDoneOrRefused : Obligations.EveryCommandIsDoneOrRefused := by
  intro s input rest hp outside
  constructor
  · rintro ⟨⟨i, hd⟩, hin⟩
    have hinside : ∀ a, i = .readByte a ∨ (∃ d, i = .writeByte a d) → a < s.geom.fbBytes := by
      intro a hi
      by_contra ha
      refine hin ⟨a, by omega, ?_⟩
      rcases hi with rfl | ⟨d, rfl⟩
      · exact .inl hd
      · exact .inr ⟨d, hd⟩
    obtain ⟨t, ht⟩ := exec_done_of_not_outside (s := s.taking input rest) hinside
    obtain ⟨response, es, hrecords⟩ := exec_next_records ht
    exact ⟨t, response, es, (step_of_command hp hd).trans ht, hrecords⟩
  · intro h
    have hrefused : ∃ r, step s = .refused r := by
      rcases h with ⟨e, hd⟩ | ⟨a, ha, hd | ⟨d, hd⟩⟩
      · exact ⟨_, step_of_reserved hp hd⟩
      · exact ⟨_, (step_of_command hp hd).trans (exec_byteCommand_outside (.inl rfl) ha)⟩
      · exact ⟨_, (step_of_command hp hd).trans (exec_byteCommand_outside (.inr ⟨d, rfl⟩) ha)⟩
    obtain ⟨r, hr⟩ := hrefused
    refine ⟨r, hr, (advance_of_refused hr).trans (afterRefusal_of_port hp r), fun k => ?_⟩
    have hmark : (advance s).refusalMark = true := by rw [advance_of_refused hr, refusalMark_afterRefusal]
    exact advanceN_keeps_refusalMark k hmark

/-- Settles O18 from the constants' own lemmas (R5, R6). -/
theorem derivedConstantsAreAsListed : Obligations.DerivedConstantsAreAsListed := fun g =>
  ⟨g.dt_eq, Config.bytesPerPanelRow_eq, g.screenW_eq, g.screenH_eq, g.stripRowBytes_eq, g.fbBytes_eq, rfl,
    Config.bandRows_eq, g.bytesPerScan_eq, g.fbBytes_le⟩

end Sys2Proof.Machine

namespace Sys2Proof.Machine

/-! ## The panel under a list of events (R23, R24) -/

@[simp] theorem Panel.after_nil (p : Panel) : p.after [] = p := rfl

@[simp] theorem Panel.after_cons (p : Panel) (e : Event) (es : List Event) :
    p.after (e :: es) = (p.on e).after es := rfl

theorem Panel.after_append (p : Panel) (es fs : List Event) : p.after (es ++ fs) = (p.after es).after fs :=
  List.foldl_append

/-- Transmitted bytes enter the shift chain in order and leave the output registers as they were (R24). -/
theorem Panel.after_map_tx (p : Panel) (bytes : List Byte) :
    p.after (bytes.map .tx) = { p with chain := p.chain ++ bytes } := by
  induction bytes generalizing p with
  | nil => simp
  | cons b bytes ih => simp [ih, Panel.on]

/-- A free scan step's events drive the output registers of its next state: the latch takes the bytes just transmitted
(R24, R76). -/
theorem panel_after_scanEvents (s : State) :
    s.panel.after ((scanBytes s).map .tx ++ [.oe false, .latch, .rowSel s.phase, .oe true]) = (scanFree s).panel := by
  rw [Panel.after_append, Panel.after_map_tx]
  simp [Panel.on, State.panel]

/-- A command that emits nothing and leaves the output registers as they were is what no event at all drives. -/
theorem noEvents_drive {s t : State} (hevents : t.events = s.events) (hpanel : t.panel = s.panel) :
    ∃ es, t.events = s.events ++ es ∧ s.panel.after es = t.panel :=
  ⟨[], by simp [hevents], hpanel.symm⟩

/-- Settles O51: only a free scan step emits events, and those drive the registers (`panel_after_scanEvents`); every
other done command leaves both the events and the registers as they were. -/
theorem eventsDriveTheOutputRegisters : Obligations.EventsDriveTheOutputRegisters := by
  intro i s t h
  rcases exec_next_cases h with ⟨-, rfl⟩ | ⟨mode, x, y, v, -, rfl⟩ | ⟨x, y, -, rfl⟩ | ⟨normal, -, rfl⟩ |
    ⟨a, -, -, rfl⟩ | ⟨a, d, -, -, rfl⟩ | ⟨-, rfl⟩
  · exact noEvents_drive rfl rfl
  · exact noEvents_drive (by simp) (by simp [State.panel])
  · exact noEvents_drive rfl rfl
  · exact noEvents_drive rfl rfl
  · exact noEvents_drive rfl rfl
  · exact noEvents_drive rfl rfl
  · cases s.busFree with
    | true => exact ⟨_, scanFree_events s, panel_after_scanEvents s⟩
    | false => exact noEvents_drive rfl rfl

end Sys2Proof.Machine

namespace Sys2Proof.Machine

/-! ## The strip-row interleaved layout and its inverse (R30) -/

theorem byteOf_eq (g : Geometry) (panel lx ly : Nat) :
    byteOf g panel lx ly = ly * (4 * g.dt) + 4 * panel + lx / 8 := by
  rw [byteOf, Geometry.stripRowBytes_eq, Config.bytesPerPanelRow_eq, Nat.mul_comm panel]

/-- A strip row's number and the offset within it come back from a byte's address, since the offset is less than the
row's length. -/
theorem byteOf_div_mod (g : Geometry) {panel lx : Nat} (ly : Nat) (hp : panel < g.dt) (hx : lx < 32) :
    byteOf g panel lx ly / g.stripRowBytes = ly ∧ byteOf g panel lx ly % g.stripRowBytes = 4 * panel + lx / 8 := by
  rw [Nat.div_mod_unique g.stripRowBytes_pos, byteOf_eq, Geometry.stripRowBytes_eq, Nat.mul_comm ly]
  omega

/-- The byte's column within its panel's row is the address modulo 4: a strip row is a whole number of 4-byte pieces. -/
theorem byteOf_mod_four (g : Geometry) (panel ly : Nat) {lx : Nat} (hx : lx < 32) :
    byteOf g panel lx ly % 4 = lx / 8 := by
  rw [byteOf_eq, Nat.mul_left_comm]
  omega

/-- The layout takes the row, the panel and the column that the inverse reads off an address back to that address. -/
theorem byteOf_of_inverse (g : Geometry) (a : Nat) {c : Nat} (hc : c < 8) :
    byteOf g (a % g.stripRowBytes / 4) (8 * (a % 4) + c) (a / g.stripRowBytes) = a := by
  have hrow : g.stripRowBytes * (a / g.stripRowBytes) + a % g.stripRowBytes = a := Nat.div_add_mod a g.stripRowBytes
  have hcolumn : a % g.stripRowBytes % 4 = a % 4 :=
    Nat.mod_mod_of_dvd a ⟨g.dt, g.stripRowBytes_eq⟩
  rw [byteOf_eq, ← Geometry.stripRowBytes_eq, Nat.mul_comm (a / g.stripRowBytes)]
  omega

/-- The row and the panel of an address inside the framebuffer exist. -/
theorem inverse_lt (g : Geometry) {a : Nat} (ha : a < g.fbBytes) :
    a / g.stripRowBytes < 16 ∧ a % g.stripRowBytes / 4 < g.dt := by
  rw [Geometry.fbBytes_eq_rows] at ha
  have hoffset : a % g.stripRowBytes < 4 * g.dt := g.stripRowBytes_eq ▸ Nat.mod_lt a g.stripRowBytes_pos
  exact ⟨Nat.div_lt_of_lt_mul (Nat.mul_comm 16 _ ▸ ha), by omega⟩

/-! ## The bit-addresser on the pixel of a panel, a local column and a local row (R57) -/

theorem addresser_natCast (g : Geometry) {x y : Nat} (hx : x < 32 * g.dw) (hy : y < 16 * g.dh) :
    addresser g (x : Int) (y : Int) = some (locate g x y) := by
  have hon : onScreen g x y = true := (onScreen_iff g x y).2 (by omega)
  rw [addresser, if_pos hon, Int.toNat_natCast, Int.toNat_natCast]

/-- The pixel at local column `lx` and local row `ly` of the panel in place `(px, py)` is on the screen, and its byte is
the one the layout gives. -/
theorem addresser_of_place (g : Geometry) {px py lx ly : Nat} (hpx : px < g.dw) (hpy : py < g.dh) (hx : lx < 32)
    (hy : ly < 16) :
    addresser g (32 * px + lx : Nat) (16 * py + ly : Nat) =
      some (byteOf g (px + g.dw * py) lx ly, columnMask (lx % 8)) := by
  have hcolumn : (32 * px + lx) / 32 = px ∧ (32 * px + lx) % 32 = lx := by omega
  have hrow : (16 * py + ly) / 16 = py ∧ (16 * py + ly) % 16 = ly := by omega
  rw [addresser_natCast g (by omega) (by omega)]
  simp only [locate, panelOf, hcolumn, hrow]

/-- The place of a panel on the screen, from its number. -/
theorem panelPlace_lt (g : Geometry) {panel : Nat} (hp : panel < g.dt) :
    panel % g.dw < g.dw ∧ panel / g.dw < g.dh :=
  ⟨Nat.mod_lt _ g.dw_pos, Nat.div_lt_of_lt_mul (g.dt_eq ▸ hp)⟩

/-- The bit-addresser takes the pixel of a framebuffer bit, as the inverse gives it, back to that bit. -/
theorem addresser_pixelAt (g : Geometry) {a c : Nat} (ha : a < g.fbBytes) (hc : c < 8) :
    addresser g (pixelAt g a c).1 (pixelAt g a c).2 = some (a, columnMask c) := by
  obtain ⟨hrow, hpanel⟩ := inverse_lt g ha
  obtain ⟨hpx, hpy⟩ := panelPlace_lt g hpanel
  have hlx : 8 * (a % 4) + c < 32 := by omega
  have hmask : (8 * (a % 4) + c) % 8 = c := by omega
  calc addresser g (pixelAt g a c).1 (pixelAt g a c).2
      = some (byteOf g (a % g.stripRowBytes / 4 % g.dw + g.dw * (a % g.stripRowBytes / 4 / g.dw)) (8 * (a % 4) + c)
          (a / g.stripRowBytes), columnMask ((8 * (a % 4) + c) % 8)) := addresser_of_place g hpx hpy hlx hrow
    _ = some (a, columnMask c) := by rw [Nat.mod_add_div, byteOf_of_inverse g a hc, hmask]

/-- Settles O22: an address is a row times the row's length plus an offset below it, so quotient and remainder undo the
layout; and the layout undoes the inverse (`byteOf_of_inverse`), whose pixel lies on the screen. -/
theorem layoutAndItsInverse : Obligations.LayoutAndItsInverse := by
  intro g
  refine ⟨fun panel lx ly hp hx hy => ?_, fun a c => addresser_pixelAt g⟩
  obtain ⟨hdiv, hmod⟩ := byteOf_div_mod g ly hp hx
  have hcolumn := byteOf_mod_four g panel ly hx
  exact ⟨byteOf_eq g panel lx ly, byteOf_lt g hp hx hy, hdiv, by omega, by omega⟩

end Sys2Proof.Machine

namespace Sys2Proof

/-! ## The decoder, a branch per value of `OP` (R43, R44, R46, R51) -/

theorem whenZero_eq_ok_iff {zero : Bool} {i j : Instr} : whenZero zero i = .ok j ↔ zero = true ∧ i = j := by
  cases zero <;> simp [whenZero]

theorem exists_whenZero_eq_error_iff {zero : Bool} {i : Instr} : (∃ e, whenZero zero i = .error e) ↔ zero = false := by
  cases zero <;> simp [whenZero]

theorem modeOf_eq_some_iff {code : BitVec 3} {m : Mode} : modeOf code = some m ↔ code = modeCode m := by
  revert code
  cases m <;> decide

theorem modeOf_eq_none_iff {code : BitVec 3} : modeOf code = none ↔ 5 ≤ code.toNat := by
  revert code
  decide

/-- The fields that a row of R46 marks `0`, in the order of R53. -/
theorem Fields.zeroBut_eq_true_iff {f : Fields} {v data xa y : Bool} :
    f.zeroBut v data xa y = true ↔
      f.mode = 0 ∧ (v = true → f.v = 0) ∧ (data = true → f.data = 0) ∧ (xa = true → f.xa = 0) ∧ (y = true → f.y = 0) ∧
        f.rsvd = 0 := by
  simp only [Fields.zeroBut, Bool.and_eq_true, beq_iff_eq, Bool.or_eq_true, Bool.not_eq_true', ← Bool.not_eq_true,
    ← imp_iff_not_or]
  tauto

section
variable {f : Fields}

theorem decodeFields_nop (h : f.op = 0) : decodeFields f = whenZero (f.zeroBut true true true true) .nop := by
  simp [decodeFields, h]

theorem decodeFields_writePixel {m : Mode} (h : f.op = 1) (hm : f.mode = modeCode m) :
    decodeFields f = whenZero (f.data == 0 && f.rsvd == 0) (.writePixel m f.xa.toInt f.y.toInt (f.v == 1)) := by
  simp [decodeFields, h, modeOf_eq_some_iff.2 hm]

theorem decodeFields_reservedMode (h : f.op = 1) (hm : 5 ≤ f.mode.toNat) : decodeFields f = .error (.mode f.mode) := by
  simp [decodeFields, h, modeOf_eq_none_iff.2 hm]

theorem decodeFields_readPixel (h : f.op = 2) :
    decodeFields f = whenZero (f.zeroBut true true false false) (.readPixel f.xa.toInt f.y.toInt) := by
  simp [decodeFields, h]

theorem decodeFields_fill (h : f.op = 3) :
    decodeFields f = whenZero (f.zeroBut false true true true) (.fill (f.v == 1)) := by
  simp [decodeFields, h]

theorem decodeFields_readByte (h : f.op = 4) :
    decodeFields f = whenZero (f.zeroBut true true false true) (.readByte f.xa.toNat) := by
  simp [decodeFields, h]

theorem decodeFields_writeByte (h : f.op = 5) :
    decodeFields f = whenZero (f.zeroBut true false false true) (.writeByte f.xa.toNat f.data) := by
  simp [decodeFields, h]

theorem decodeFields_scanStep (h : f.op = 6) :
    decodeFields f = whenZero (f.zeroBut true true true true) .scanStep := by
  simp [decodeFields, h]

theorem decodeFields_reservedOpcode (h : 7 ≤ f.op.toNat) : decodeFields f = .error (.opcode f.op) := by
  have hne (n : Nat) (hn : n < 7) : f.op ≠ BitVec.ofNat 4 n := by
    intro he
    rw [he, BitVec.toNat_ofNat] at h
    omega
  simp [decodeFields, hne]

end

/-- The branches of the decoder: seven opcodes, the second of them with a mode or with a reserved one, and the reserved
opcodes. -/
theorem Fields.op_cases (f : Fields) :
    f.op = 0 ∨ (f.op = 1 ∧ ∃ m, f.mode = modeCode m) ∨ (f.op = 1 ∧ 5 ≤ f.mode.toNat) ∨ f.op = 2 ∨ f.op = 3 ∨ f.op = 4 ∨
      f.op = 5 ∨ f.op = 6 ∨ 7 ≤ f.op.toNat := by
  have hmode : (∃ m, f.mode = modeCode m) ∨ 5 ≤ f.mode.toNat := by
    cases h : modeOf f.mode with
    | none => exact .inr (modeOf_eq_none_iff.1 h)
    | some m => exact .inl ⟨m, modeOf_eq_some_iff.1 h⟩
  have hop : ∀ op : BitVec 4, op = 0 ∨ op = 1 ∨ op = 2 ∨ op = 3 ∨ op = 4 ∨ op = 5 ∨ op = 6 ∨ 7 ≤ op.toNat := by decide
  have := hop f.op
  tauto

/-! ## The rows of the opcode map by fields (R46, R52) -/

/-- All bits of a field that a row marks `0`, none of an operand field. -/
def maskIf {n : Nat} (zero : Bool) : BitVec n := if zero then BitVec.allOnes n else 0

theorem and_maskIf_eq_zero_iff {n : Nat} {zero : Bool} {b : BitVec n} : b &&& maskIf zero = 0 ↔ (zero = true → b = 0) := by
  cases zero <;> simp [maskIf]

/-- The row of a command other than WRITE_PIXEL: `OP` is fixed, and the fields that `Fields.zeroBut` checks are `0`. -/
def plainRow (mnemonic : String) (op : BitVec 4) (v data xa y : Bool) : OpcodeRow :=
  ⟨mnemonic, wordOf ⟨op, 0, 0, 0, 0, 0, 0⟩,
    wordOf ⟨BitVec.allOnes 4, BitVec.allOnes 3, maskIf v, maskIf data, maskIf xa, maskIf y, BitVec.allOnes 16⟩⟩

/-- The row of WRITE_PIXEL in a mode: `OP` and `MODE` are fixed, `DATA` and `RSVD` are `0`. The mnemonic is the same for
all operands. -/
def pixelRow (m : Mode) : OpcodeRow :=
  ⟨(Instr.writePixel m 0 0 false).mnemonic, wordOf ⟨1, modeCode m, 0, 0, 0, 0, 0⟩,
    wordOf ⟨BitVec.allOnes 4, BitVec.allOnes 3, maskIf false, BitVec.allOnes 8, maskIf false, maskIf false,
      BitVec.allOnes 16⟩⟩

theorem opcodeRows_eq : opcodeRows =
    [plainRow "NOP" 0 true true true true,
     pixelRow .normal, pixelRow .inverse, pixelRow .toggle, pixelRow .or, pixelRow .nor,
     plainRow "READ_PIXEL" 2 true true false false,
     plainRow "FILL" 3 false true true true,
     plainRow "READ_BYTE" 4 true true false true,
     plainRow "WRITE_BYTE" 5 true false false true,
     plainRow "SCAN_STEP" 6 true true true true] := by decide

/-- A masked word, seen by fields. -/
theorem and_wordOf_eq_wordOf_iff (w : Word) (m p : Fields) : w &&& wordOf m = wordOf p ↔ (fieldsOf w).and m = p := by
  rw [← wordOf_inj, wordOf_and, wordOf_fieldsOf]

theorem matches_plainRow_iff {w : Word} {name : String} {op : BitVec 4} {v data xa y : Bool} :
    w &&& (plainRow name op v data xa y).mask = (plainRow name op v data xa y).pattern ↔
      (fieldsOf w).op = op ∧ (fieldsOf w).zeroBut v data xa y = true := by
  simp only [plainRow, and_wordOf_eq_wordOf_iff, Fields.and, Fields.mk.injEq, BitVec.and_allOnes, and_maskIf_eq_zero_iff,
    Fields.zeroBut_eq_true_iff]

theorem matches_pixelRow_iff {w : Word} {m : Mode} :
    w &&& (pixelRow m).mask = (pixelRow m).pattern ↔
      (fieldsOf w).op = 1 ∧ (fieldsOf w).mode = modeCode m ∧ ((fieldsOf w).data == 0 && (fieldsOf w).rsvd == 0) = true := by
  simp only [pixelRow, and_wordOf_eq_wordOf_iff, Fields.and, Fields.mk.injEq, BitVec.and_allOnes, and_maskIf_eq_zero_iff,
    Bool.false_eq_true, false_implies, true_and, Bool.and_eq_true, beq_iff_eq]

/-! ## The opcode map and the decoder agree (R51) -/

/-- Two rows fix some bit to different values, unless they are one row. -/
theorem opcodeRows_apart : ∀ r ∈ opcodeRows, ∀ r' ∈ opcodeRows, r.pattern &&& r'.mask = r'.pattern &&& r.mask → r = r' := by
  decide

theorem opcodeRow_unique {w : Word} {r r' : OpcodeRow} (hr : r ∈ opcodeRows) (hr' : r' ∈ opcodeRows)
    (h : w &&& r.mask = r.pattern) (h' : w &&& r'.mask = r'.pattern) : r = r' := by
  refine opcodeRows_apart r hr r' hr' ?_
  rw [← h, ← h', BitVec.and_assoc, BitVec.and_assoc, BitVec.and_comm r.mask]

theorem decode_of_matches_pixelRow {w : Word} {m : Mode}
    (h : w &&& (pixelRow m).mask = (pixelRow m).pattern) :
    decode w = .ok (.writePixel m (fieldsOf w).xa.toInt (fieldsOf w).y.toInt ((fieldsOf w).v == 1)) := by
  obtain ⟨hop, hmode, hzero⟩ := matches_pixelRow_iff.1 h
  exact (decodeFields_writePixel hop hmode).trans (whenZero_eq_ok_iff.2 ⟨hzero, rfl⟩)

/-- A word that matches a row of a command other than WRITE_PIXEL decodes to what the decoder's branch for its `OP`
gives. -/
theorem decode_of_matches_plainRow {w : Word} {name : String} {op : BitVec 4} {v data xa y : Bool} {i : Instr}
    (hbranch : (fieldsOf w).op = op → decodeFields (fieldsOf w) = whenZero ((fieldsOf w).zeroBut v data xa y) i)
    (h : w &&& (plainRow name op v data xa y).mask = (plainRow name op v data xa y).pattern) : decode w = .ok i := by
  obtain ⟨hop, hzero⟩ := matches_plainRow_iff.1 h
  exact (hbranch hop).trans (whenZero_eq_ok_iff.2 ⟨hzero, rfl⟩)

/-- A word that matches a row is a command of the row's mnemonic. -/
theorem decode_of_matches_row {w : Word} :
    ∀ r ∈ opcodeRows, w &&& r.mask = r.pattern → ∃ i, decode w = .ok i ∧ r.mnemonic = i.mnemonic := by
  simp only [opcodeRows_eq, List.forall_mem_cons]
  exact ⟨fun h => ⟨_, decode_of_matches_plainRow decodeFields_nop h, rfl⟩,
    fun h => ⟨_, decode_of_matches_pixelRow h, rfl⟩,
    fun h => ⟨_, decode_of_matches_pixelRow h, rfl⟩,
    fun h => ⟨_, decode_of_matches_pixelRow h, rfl⟩,
    fun h => ⟨_, decode_of_matches_pixelRow h, rfl⟩,
    fun h => ⟨_, decode_of_matches_pixelRow h, rfl⟩,
    fun h => ⟨_, decode_of_matches_plainRow decodeFields_readPixel h, rfl⟩,
    fun h => ⟨_, decode_of_matches_plainRow decodeFields_fill h, rfl⟩,
    fun h => ⟨_, decode_of_matches_plainRow decodeFields_readByte h, rfl⟩,
    fun h => ⟨_, decode_of_matches_plainRow decodeFields_writeByte h, rfl⟩,
    fun h => ⟨_, decode_of_matches_plainRow decodeFields_scanStep h, rfl⟩,
    fun _ h => nomatch h⟩

theorem pixelRow_mem (m : Mode) : pixelRow m ∈ opcodeRows := by
  cases m <;> simp [opcodeRows_eq]

/-- A word that one of the decoder's branches turned into a command passed the branch's check, so it matches the row. -/
theorem matches_plainRow_of_decode {w : Word} {name : String} {op : BitVec 4} {v data xa y : Bool} {i j : Instr}
    (hop : (fieldsOf w).op = op) (hbranch : decodeFields (fieldsOf w) = whenZero ((fieldsOf w).zeroBut v data xa y) j)
    (h : decode w = .ok i) :
    w &&& (plainRow name op v data xa y).mask = (plainRow name op v data xa y).pattern := by
  obtain ⟨hzero, -⟩ := whenZero_eq_ok_iff.1 (hbranch.symm.trans h)
  exact matches_plainRow_iff.2 ⟨hop, hzero⟩

theorem exists_row_of_decode {w : Word} {i : Instr} (h : decode w = .ok i) :
    ∃ r ∈ opcodeRows, w &&& r.mask = r.pattern := by
  rcases (fieldsOf w).op_cases with hop | ⟨hop, m, hm⟩ | ⟨hop, hm⟩ | hop | hop | hop | hop | hop | hop
  · exact ⟨plainRow "NOP" 0 true true true true, by simp [opcodeRows_eq],
      matches_plainRow_of_decode hop (decodeFields_nop hop) h⟩
  · obtain ⟨hzero, -⟩ := whenZero_eq_ok_iff.1 ((decodeFields_writePixel hop hm).symm.trans h)
    exact ⟨pixelRow m, pixelRow_mem m, matches_pixelRow_iff.2 ⟨hop, hm, hzero⟩⟩
  · exact nomatch (decodeFields_reservedMode hop hm).symm.trans h
  · exact ⟨plainRow "READ_PIXEL" 2 true true false false, by simp [opcodeRows_eq],
      matches_plainRow_of_decode hop (decodeFields_readPixel hop) h⟩
  · exact ⟨plainRow "FILL" 3 false true true true, by simp [opcodeRows_eq],
      matches_plainRow_of_decode hop (decodeFields_fill hop) h⟩
  · exact ⟨plainRow "READ_BYTE" 4 true true false true, by simp [opcodeRows_eq],
      matches_plainRow_of_decode hop (decodeFields_readByte hop) h⟩
  · exact ⟨plainRow "WRITE_BYTE" 5 true false false true, by simp [opcodeRows_eq],
      matches_plainRow_of_decode hop (decodeFields_writeByte hop) h⟩
  · exact ⟨plainRow "SCAN_STEP" 6 true true true true, by simp [opcodeRows_eq],
      matches_plainRow_of_decode hop (decodeFields_scanStep hop) h⟩
  · exact nomatch (decodeFields_reservedOpcode hop).symm.trans h

/-- Settles O3: a matching row's fields are what the decoder's branch checks, in both directions, and no two rows agree
on the bits that both fix. -/
theorem wordIsCommandExactlyWhenOneRowMatches : Obligations.WordIsCommandExactlyWhenOneRowMatches := by
  intro w
  refine ⟨⟨fun ⟨i, hi⟩ => exists_row_of_decode hi, ?_⟩, fun r hr r' hr' => opcodeRow_unique hr hr', ?_⟩
  · rintro ⟨r, hr, hm⟩
    obtain ⟨i, hi, -⟩ := decode_of_matches_row r hr hm
    exact ⟨i, hi⟩
  · intro i hi r hr hm
    obtain ⟨j, hj, hmnemonic⟩ := decode_of_matches_row r hr hm
    rw [hmnemonic, Except.ok.inj (hj.symm.trans hi)]

/-! ## The reserved words (R53) -/

theorem Fields.zeroBut_eq_false_iff {f : Fields} {v data xa y : Bool} :
    f.zeroBut v data xa y = false ↔
      f.mode ≠ 0 ∨ (v = true ∧ f.v ≠ 0) ∨ (data = true ∧ f.data ≠ 0) ∨ (xa = true ∧ f.xa ≠ 0) ∨
        (y = true ∧ f.y ≠ 0) ∨ f.rsvd ≠ 0 := by
  rw [← Bool.not_eq_true, Fields.zeroBut_eq_true_iff]
  tauto

theorem modeCode_lt (m : Mode) : (modeCode m).toNat < 5 := by
  cases m <;> decide

/-- The fields under which the decoder rejects a word. -/
theorem exists_decodeFields_eq_error_iff (f : Fields) :
    (∃ e, decodeFields f = .error e) ↔
      7 ≤ f.op.toNat ∨ (f.op = 1 ∧ 5 ≤ f.mode.toNat) ∨
      (f.op ≠ 1 ∧ f.mode ≠ 0) ∨ (f.op ≠ 1 ∧ f.op ≠ 3 ∧ f.v ≠ 0) ∨ (f.op ≠ 5 ∧ f.data ≠ 0) ∨
      (f.op ≠ 1 ∧ f.op ≠ 2 ∧ f.op ≠ 4 ∧ f.op ≠ 5 ∧ f.xa ≠ 0) ∨ (f.op ≠ 1 ∧ f.op ≠ 2 ∧ f.y ≠ 0) ∨ f.rsvd ≠ 0 := by
  rcases f.op_cases with hop | ⟨hop, m, hm⟩ | ⟨hop, hm⟩ | hop | hop | hop | hop | hop | hop
  · simp [decodeFields_nop hop, exists_whenZero_eq_error_iff, Fields.zeroBut_eq_false_iff, hop]
  · simp [decodeFields_writePixel hop hm, exists_whenZero_eq_error_iff, hop, hm, Nat.not_le.2 (modeCode_lt m),
      imp_iff_not_or]
  · simp [decodeFields_reservedMode hop hm, hop, hm]
  · simp [decodeFields_readPixel hop, exists_whenZero_eq_error_iff, Fields.zeroBut_eq_false_iff, hop]
  · simp [decodeFields_fill hop, exists_whenZero_eq_error_iff, Fields.zeroBut_eq_false_iff, hop]
  · simp [decodeFields_readByte hop, exists_whenZero_eq_error_iff, Fields.zeroBut_eq_false_iff, hop]
  · simp [decodeFields_writeByte hop, exists_whenZero_eq_error_iff, Fields.zeroBut_eq_false_iff, hop]
  · simp [decodeFields_scanStep hop, exists_whenZero_eq_error_iff, Fields.zeroBut_eq_false_iff, hop]
  · simp [decodeFields_reservedOpcode hop, hop]

end Sys2Proof

namespace Sys2Proof.Machine

/-- Settles O4: the cases are the decoder's branches that reject, and a step that finds such a word is refused with
nothing changed but the record and the port. -/
theorem reservedWordsAreRefused : Obligations.ReservedWordsAreRefused := by
  intro w f
  refine ⟨exists_decodeFields_eq_error_iff f, fun s level rest hp ⟨e, he⟩ => ?_⟩
  have hstep : step s = .refused (.reservedEncoding w) := step_of_reserved hp he
  rw [advance_of_refused hstep]
  exact ⟨hstep, afterRefusal_of_port hp _, refusalMark_afterRefusal s _⟩

/-! ## The responses (R50) -/

theorem pixelBit_isSome (s : State) (x y : Int) : (pixelBit s x y).isSome = (addresser s.geom x y).isSome := by
  simp [pixelBit]

/-- READ_PIXEL's response holds `VALID` in bit 0, `BIT` in bit 1 and zeros above. -/
theorem pixelResponse_bits (bit : Option Bool) :
    (pixelResponse bit).getLsbD 0 = bit.isSome ∧ (pixelResponse bit).getLsbD 1 = bit.getD false ∧
      pixelResponse bit >>> 2 = 0 := by
  revert bit
  decide

theorem eq_respond_of_exec_readByte {a : Nat} {s t : State} (h : exec (.readByte a) s = .next t) :
    t = s.respond (s.byte a) := by
  rw [exec, execReadByte] at h
  rcases withAddress_cases a s (s.respond (s.byte a)) with ⟨-, hw⟩ | ⟨-, hw⟩ <;> rw [hw] at h
  · cases h
  · exact (Host.Outcome.next.inj h).symm

theorem responses_of_exec_not_read {i : Instr} {s t : State} (h : exec i s = .next t)
    (hpixel : ∀ x y, i ≠ .readPixel x y) (hbyte : ∀ a, i ≠ .readByte a) : t.responses = s.responses := by
  rcases exec_next_cases h with ⟨-, rfl⟩ | ⟨mode, x, y, v, -, rfl⟩ | ⟨x, y, hi, -⟩ | ⟨normal, -, rfl⟩ |
    ⟨a, hi, -⟩ | ⟨a, d, -, -, rfl⟩ | ⟨-, rfl⟩
  · rfl
  · exact writePixel_responses _ x y v s
  · exact absurd hi (hpixel x y)
  · rfl
  · exact absurd hi (hbyte a)
  · rfl
  · cases s.busFree with
    | true => exact scanFree_responses s
    | false => rfl

/-- Settles O34: each read answers with `State.respond`, and no other done command touches the responses. -/
theorem onlyTheReadsRespond : Obligations.OnlyTheReadsRespond := by
  intro i s t h
  refine ⟨?_, ?_, responses_of_exec_not_read h⟩
  · rintro x y rfl
    obtain rfl : s.respond (pixelResponse (pixelBit s x y)) = t := Host.Outcome.next.inj h
    obtain ⟨hvalid, hbit, hupper⟩ := pixelResponse_bits (pixelBit s x y)
    exact ⟨_, rfl, hvalid.trans (pixelBit_isSome s x y), hbit, hupper⟩
  · rintro a rfl
    rw [eq_respond_of_exec_readByte h, State.respond_responses]

end Sys2Proof.Machine

namespace Sys2Proof

/-! ## The pixel commands' words (R46, R52) -/

theorem pixelRow_mask (m : Mode) : (pixelRow m).mask = 0xFFFF00000000FF7F := by
  cases m <;> decide

theorem extractLsb'_one_beq_one (w : Word) (i : Nat) : (w.extractLsb' i 1 == 1) = w.getLsbD i := by
  have hbit : w.getLsbD i = (w.extractLsb' i 1).getLsbD 0 := by simp
  have hone : ∀ b : BitVec 1, (b == 1) = b.getLsbD 0 := by decide
  rw [hbit, hone]

/-- A word that matches the row of WRITE_PIXEL in a mode, with the numbers of R52, decodes to that command: coordinates
sign-extended (R47), `v` bit 7. -/
theorem decode_of_masked_writePixel (m : Mode) {w p : Word} (hp : (pixelRow m).pattern = p)
    (h : w &&& 0xFFFF00000000FF7F = p) :
    decode w =
      .ok (.writePixel m (w.extractLsb' 16 16).toInt (w.extractLsb' 32 16).toInt (w.getLsbD 7)) := by
  rw [← extractLsb'_one_beq_one]
  rw [← hp, ← pixelRow_mask m] at h
  exact decode_of_matches_pixelRow h

end Sys2Proof

namespace Sys2Proof.Machine

/-! ## A pixel's mask has exactly one bit (R31, R57) -/

theorem columnMask_eq_twoPow {c : Nat} (hc : c < 8) : columnMask c = BitVec.twoPow 8 (7 - c) := by
  revert c
  decide

theorem exists_mask_eq_twoPow {g : Geometry} {x y : Int} {a : Nat} {m : Byte} (h : addresser g x y = some (a, m)) :
    ∃ k < 8, m = BitVec.twoPow 8 k := by
  rcases addresser_cases g x y with ⟨-, hnone⟩ | ⟨-, hsome⟩
  · rw [hnone] at h
    cases h
  · obtain ⟨-, rfl⟩ := Prod.mk.inj (Option.some.inj (hsome.symm.trans h))
    exact ⟨_, by omega, columnMask_eq_twoPow (Nat.mod_lt _ (by decide))⟩

/-- A pixel is lit or unlit: under its mask a byte is `0` or the mask (R15, R60). -/
theorem and_mask_eq_zero_or_mask {g : Geometry} {x y : Int} {a : Nat} {m : Byte}
    (h : addresser g x y = some (a, m)) (b : Byte) : b &&& m = 0 ∨ b &&& m = m := by
  obtain ⟨k, -, rfl⟩ := exists_mask_eq_twoPow h
  rw [BitVec.and_twoPow]
  cases b.getLsbD k with
  | true => exact .inr rfl
  | false => exact .inl rfl

theorem mask_ne_zero {g : Geometry} {x y : Int} {a : Nat} {m : Byte} (h : addresser g x y = some (a, m)) : m ≠ 0 := by
  obtain ⟨k, hk, hm⟩ := exists_mask_eq_twoPow h
  have hpow : ∀ k < 8, BitVec.twoPow 8 k ≠ 0 := by decide
  exact hm ▸ hpow k hk

/-! ## The composition mux (R60 to R65) -/

theorem storedBit_eq_true_iff {b m : Byte} : storedBit b m = true ↔ b &&& m ≠ 0 := by
  simp [storedBit]

theorem storedBit_eq_false_iff {b m : Byte} : storedBit b m = false ↔ b &&& m = 0 := by
  simp [storedBit]

theorem xor_eq_or_and_not_and (b m : Byte) : b ^^^ m = (b ||| m) &&& ~~~(b &&& m) := by
  ext i hi
  simp only [BitVec.getElem_xor, BitVec.getElem_and, BitVec.getElem_or, BitVec.getElem_not]
  cases b[i] <;> cases m[i] <;> rfl

theorem or_eq_self_of_and_eq {b m : Byte} (h : b &&& m = m) : b ||| m = b := by
  have habsorb : b ||| (b &&& m) = b := by
    ext i hi
    rw [BitVec.getElem_or, BitVec.getElem_and]
    exact sup_inf_self
  rwa [h] at habsorb

/-- The two spellings of R63: TOGGLE lights an unlit pixel and unlights a lit one. -/
theorem xor_mask_eq {b m : Byte} (h : b &&& m = 0 ∨ b &&& m = m) :
    b ^^^ m = if b &&& m = 0 then b ||| m else b &&& ~~~m := by
  rw [xor_eq_or_and_not_and]
  split
  next hzero => rw [hzero, show ~~~(0 : Byte) = BitVec.allOnes 8 from rfl, BitVec.and_allOnes]
  next hne =>
    have hmask := h.resolve_left hne
    rw [hmask, or_eq_self_of_and_eq hmask]

/-- The two spellings of R65: writing an unlit bit over an unlit one is no change. -/
theorem or_mask_if_lit_eq {b m : Byte} (h : b &&& m = 0 ∨ b &&& m = m) (v : Bool) :
    (if v = true ∧ b &&& m = 0 then b ||| m else b) = if v then b ||| m else b := by
  rcases h with hzero | hmask
  · simp [hzero]
  · simp [or_eq_self_of_and_eq hmask]

theorem composeNor_eq (v : Bool) (b m : Byte) : composeNor v b m = if v = true ∧ b &&& m = 0 then b ||| m else b := by
  simp only [composeNor, Bool.and_eq_true, Bool.not_eq_true', storedBit_eq_false_iff]

/-- Every mode's function but TOGGLE's with `v = 1` is idempotent in the existing byte (R61 to R65). -/
theorem compose_compose {mode : Mode} {v : Bool} (h : (mode, v) ≠ (.toggle, true)) (b m : Byte) :
    compose mode v (compose mode v b m) m = compose mode v b m := by
  cases mode with
  | normal => cases v <;> simp [compose, composeNormal, BitVec.and_assoc, BitVec.or_assoc]
  | inverse => cases v <;> simp [compose, composeInverse, BitVec.and_assoc, BitVec.or_assoc]
  | toggle =>
    cases v with
    | false => rfl
    | true => exact absurd rfl h
  | or => cases v <;> simp [compose, composeOr, BitVec.and_assoc]
  | nor =>
    simp only [compose, composeNor_eq]
    split
    next => rw [BitVec.or_assoc, BitVec.or_self, ite_self]
    next => rfl

theorem composeToggle_composeToggle (v : Bool) (b m : Byte) : composeToggle v (composeToggle v b m) m = b := by
  cases v with
  | false => rfl
  | true => exact (BitVec.xor_assoc b m m).trans (by simp)

/-- OR never sets a bit, under any mask (R64). -/
theorem storedBit_of_composeOr {v : Bool} {b m m' : Byte} (h : storedBit (composeOr v b m) m' = true) :
    storedBit b m' = true := by
  rw [storedBit_eq_true_iff] at h ⊢
  intro hb
  cases v with
  | false => exact h hb
  | true =>
    refine h ?_
    calc b &&& ~~~m &&& m' = b &&& m' &&& ~~~m := by rw [BitVec.and_assoc, BitVec.and_comm (~~~m), BitVec.and_assoc]
      _ = 0 &&& ~~~m := by rw [hb]
      _ = 0 := BitVec.zero_and

/-- NOR never clears a bit, under any mask (R65). -/
theorem storedBit_of_composeNor {v : Bool} {b m m' : Byte} (h : storedBit (composeNor v b m) m' = false) :
    storedBit b m' = false := by
  rw [storedBit_eq_false_iff, composeNor_eq] at h
  rw [storedBit_eq_false_iff]
  split at h
  · rw [BitVec.and_or_distrib_right] at h
    exact (BitVec.or_eq_zero_iff.1 h).1
  · exact h

/-! ## One pixel write: off the screen, on the screen, and what reads as before (R58, R60) -/

theorem writePixel_offScreen {x y : Int} {s : State} (h : addresser s.geom x y = none)
    (mux : Bool → Byte → Byte → Byte) (v : Bool) : writePixel mux x y v s = s := by
  simp only [writePixel, h]

theorem writePixel_onScreen {x y : Int} {s : State} {a : Nat} {m : Byte} (h : addresser s.geom x y = some (a, m))
    (mux : Bool → Byte → Byte → Byte) (v : Bool) :
    writePixel mux x y v s = s.storeByte a (mux v (s.byte a) m) := by
  simp only [writePixel, h]

theorem exec_writePixel_offScreen (mode : Mode) {x y : Int} (v : Bool) {s : State}
    (h : addresser s.geom x y = none) : exec (.writePixel mode x y v) s = .next s := by
  rw [exec_writePixel, writePixel_offScreen h]

theorem storesByte_storeByte (s : State) (a : Nat) (b : Byte) : StoresByte (.next (s.storeByte a b)) s a b := by
  refine ⟨s.fb.write a b, rfl, fun hwf => ⟨Memory.wf_write hwf a b, fun a' => ?_⟩⟩
  rw [Memory.read_write hwf]
  exact if_congr eq_comm rfl rfl

/-- On the screen a pixel write stores the byte the mode's function gives, and does nothing else. -/
theorem exec_writePixel_storesByte (mode : Mode) {x y : Int} (v : Bool) {s : State} {a : Nat} {m : Byte}
    (h : addresser s.geom x y = some (a, m)) :
    StoresByte (exec (.writePixel mode x y v) s) s a (compose mode v (s.byte a) m) := by
  rw [exec_writePixel, writePixel_onScreen h]
  exact storesByte_storeByte s a _

theorem byte_storeByte {s : State} (hwf : s.fb.wf = true) (a : Nat) (b : Byte) (a' : Nat) :
    (s.storeByte a b).byte a' = if a = a' then b else s.byte a' :=
  Memory.read_write hwf a b a'

theorem storeByte_byte {s : State} (hwf : s.fb.wf = true) (a : Nat) : s.storeByte a (s.byte a) = s := by
  rw [State.storeByte, State.byte, Memory.write_read hwf]

theorem storeByte_storeByte {s : State} (hwf : s.fb.wf = true) (a : Nat) (b c : Byte) :
    (s.storeByte a b).storeByte a c = s.storeByte a c := by
  simp only [State.storeByte, Memory.write_write hwf]

/-- When the mux turns no stored bit into `bit`, under any mask, a pixel of the screen that holds `bit` after the write
held it before. -/
theorem pixelBit_of_writePixel {mux : Bool → Byte → Byte → Byte} {x y x' y' : Int} {v bit : Bool} {s : State}
    (hwf : s.fb.wf = true) (hmux : ∀ b m m', storedBit (mux v b m) m' = bit → storedBit b m' = bit)
    (h : pixelBit (writePixel mux x y v s) x' y' = some bit) : pixelBit s x' y' = some bit := by
  cases ha : addresser s.geom x y with
  | none => rwa [writePixel_offScreen ha] at h
  | some p =>
    obtain ⟨a, m⟩ := p
    rw [writePixel_onScreen ha] at h
    simp only [pixelBit, State.storeByte_geom, byte_storeByte hwf, Option.map_eq_some_iff] at h ⊢
    obtain ⟨⟨a', m'⟩, ha', hbit⟩ := h
    refine ⟨(a', m'), ha', ?_⟩
    split at hbit
    next heq => exact heq ▸ hmux _ m m' hbit
    next => exact hbit

/-! ## Two pixel writes at one pixel (R66 (c)) -/

/-- Two writes at one pixel are one write through the composed functions. -/
theorem writePixel_writePixel (mux mux' : Bool → Byte → Byte → Byte) (x y : Int) (v : Bool) {s : State}
    (hwf : s.fb.wf = true) :
    writePixel mux' x y v (writePixel mux x y v s) = writePixel (fun v b m => mux' v (mux v b m) m) x y v s := by
  cases h : addresser s.geom x y with
  | none => simp only [writePixel_offScreen h]
  | some p =>
    obtain ⟨a, m⟩ := p
    have h' : addresser (s.storeByte a (mux v (s.byte a) m)).geom x y = some (a, m) := h
    rw [writePixel_onScreen h, writePixel_onScreen h', writePixel_onScreen h, byte_storeByte hwf, if_pos rfl,
      storeByte_storeByte hwf]

theorem writePixel_congr {mux mux' : Bool → Byte → Byte → Byte} {v : Bool} (h : ∀ b m, mux v b m = mux' v b m)
    (x y : Int) (s : State) : writePixel mux x y v s = writePixel mux' x y v s := by
  simp only [writePixel, h]

theorem writePixel_existing (x y : Int) (v : Bool) {s : State} (hwf : s.fb.wf = true) :
    writePixel (fun _ b _ => b) x y v s = s := by
  cases h : addresser s.geom x y with
  | none => exact writePixel_offScreen h _ v
  | some p => rw [writePixel_onScreen h, storeByte_byte hwf]

/-- A pixel write of any mode but TOGGLE with `v = 1`, done twice, is done once. -/
theorem exec_writePixel_idempotent {mode : Mode} {v : Bool} (hmode : (mode, v) ≠ (.toggle, true)) {x y : Int}
    {s t : State} (hwf : s.fb.wf = true) (h : exec (.writePixel mode x y v) s = .next t) :
    exec (.writePixel mode x y v) t = .next t := by
  rw [exec_writePixel] at h ⊢
  obtain rfl := Host.Outcome.next.inj h
  rw [writePixel_writePixel _ _ x y v hwf, writePixel_congr (compose_compose hmode)]

/-- Two TOGGLEs of one pixel give the state back (R63). -/
theorem execAll_toggle_toggle (x y : Int) (v : Bool) {s : State} (hwf : s.fb.wf = true) :
    execAll [.writePixelToggle x y v, .writePixelToggle x y v] s = .next s := by
  have htwice : writePixel composeToggle x y v (writePixel composeToggle x y v s) = s := by
    rw [writePixel_writePixel _ _ x y v hwf, writePixel_congr (mux' := fun _ b _ => b) (composeToggle_composeToggle v),
      writePixel_existing x y v hwf]
  exact congrArg _ htwice

/-! ## READ_PIXEL (R67) -/

theorem exec_readPixel (x y : Int) (s : State) :
    exec (.readPixel x y) s = .next (s.respond (pixelResponse (pixelBit s x y))) := rfl

theorem exec_readPixel_offScreen {x y : Int} {s : State} (h : addresser s.geom x y = none) :
    exec (.readPixel x y) s = .next (s.respond 0x00) := by
  rw [exec_readPixel, pixelBit, h]
  rfl

theorem exec_readPixel_onScreen {x y : Int} {s : State} {a : Nat} {m : Byte} (h : addresser s.geom x y = some (a, m)) :
    exec (.readPixel x y) s = .next (s.respond (if s.byte a &&& m ≠ 0 then 0x03 else 0x01)) := by
  rw [exec_readPixel, pixelBit, h, Option.map_some, pixelResponse]
  simp only [storedBit_eq_true_iff]

/-! ## The obligations -/

/-- Settles O19: the addresser's range is `onScreen_iff`, and each pixel command takes its branch off the screen. -/
theorem offScreenPixelCommandsChangeNothing : Obligations.OffScreenPixelCommandsChangeNothing := by
  refine ⟨fun g x y => ?_, fun s x y h =>
    ⟨fun mode v => exec_writePixel_offScreen mode v h, exec_readPixel_offScreen h⟩⟩
  rw [addresser_eq_none_iff, ← Bool.not_eq_true, onScreen_iff]
  omega

/-- Settles O25: the common part of a pixel write, with COMPOSE_NORMAL idempotent. -/
theorem writePixelNormalLightsOrUnlights : Obligations.WritePixelNormalLightsOrUnlights :=
  ⟨fun _ => decode_of_masked_writePixel .normal (by decide), fun _ _ _ v =>
    ⟨exec_writePixel_offScreen .normal v, fun _ _ => exec_writePixel_storesByte .normal v,
      fun hwf _ => exec_writePixel_idempotent (mode := .normal) (by simp) hwf⟩⟩

/-- Settles O26: the common part of a pixel write, with COMPOSE_INVERSE idempotent. -/
theorem writePixelInverseUnlightsOrLights : Obligations.WritePixelInverseUnlightsOrLights :=
  ⟨fun _ => decode_of_masked_writePixel .inverse (by decide), fun _ _ _ v =>
    ⟨exec_writePixel_offScreen .inverse v, fun _ _ => exec_writePixel_storesByte .inverse v,
      fun hwf _ => exec_writePixel_idempotent (mode := .inverse) (by simp) hwf⟩⟩

/-- Settles O27: the mask has one bit, so flipping it is setting or clearing it and always changes the byte; flipping
twice gives the byte back. -/
theorem writePixelToggleInverts : Obligations.WritePixelToggleInverts := by
  refine ⟨fun _ => decode_of_masked_writePixel .toggle (by decide), fun s x y v =>
    ⟨exec_writePixel_offScreen .toggle v, fun a m h => ⟨exec_writePixel_storesByte .toggle v h, ?_, ?_⟩,
      execAll_toggle_toggle x y v⟩⟩
  · exact xor_mask_eq (and_mask_eq_zero_or_mask h (s.byte a))
  · intro hself
    have hxor : s.byte a ^^^ m = s.byte a ^^^ 0 := hself.trans BitVec.xor_zero.symm
    exact mask_ne_zero h ((BitVec.xor_right_inj _).1 hxor)

/-- Settles O28: the common part of a pixel write, with COMPOSE_OR idempotent and never setting a bit. -/
theorem writePixelOrOnlyLights : Obligations.WritePixelOrOnlyLights := by
  refine ⟨fun _ => decode_of_masked_writePixel .or (by decide), fun s x y v =>
    ⟨exec_writePixel_offScreen .or v, fun _ _ => exec_writePixel_storesByte .or v, fun hwf t h =>
      ⟨exec_writePixel_idempotent (mode := .or) (by simp) hwf h, fun x' y' hbit => ?_⟩⟩⟩
  obtain rfl : writePixel composeOr x y v s = t := Host.Outcome.next.inj h
  exact pixelBit_of_writePixel hwf (fun _ _ _ => storedBit_of_composeOr) hbit

/-- Settles O29: COMPOSE_NOR's condition on the stored bit makes no difference under a one-bit mask; it is idempotent
and never clears a bit. -/
theorem writePixelNorOnlyUnlights : Obligations.WritePixelNorOnlyUnlights := by
  refine ⟨fun _ => decode_of_masked_writePixel .nor (by decide), fun s x y v =>
    ⟨exec_writePixel_offScreen .nor v, fun a m h => ?_, fun hwf t h =>
      ⟨exec_writePixel_idempotent (mode := .nor) (by simp) hwf h, fun x' y' hbit => ?_⟩⟩⟩
  · have hspellings := or_mask_if_lit_eq (and_mask_eq_zero_or_mask h (s.byte a)) v
    refine ⟨?_, hspellings⟩
    rw [← hspellings, ← composeNor_eq]
    exact exec_writePixel_storesByte .nor v h
  · obtain rfl : writePixel composeNor x y v s = t := Host.Outcome.next.inj h
    exact pixelBit_of_writePixel hwf (fun _ _ _ => storedBit_of_composeNor) hbit

/-- Settles O33: the row's word decodes to READ_PIXEL, which answers from the stored bit or, off the screen, `0x00`. -/
theorem readPixelRespondsValidAndBit : Obligations.ReadPixelRespondsValidAndBit :=
  ⟨fun _ h => decode_of_matches_plainRow (name := "READ_PIXEL") decodeFields_readPixel h,
    fun _ _ _ => ⟨exec_readPixel_offScreen, fun _ _ => exec_readPixel_onScreen⟩⟩

end Sys2Proof.Machine

namespace Sys2Proof

/-! ## FILL's word (R46, R52) -/

/-- A word that matches FILL's row, with the numbers of R52, decodes to it: the fill selector is bit 7 (R45). -/
theorem decode_of_masked_fill {w : Word} (h : w &&& 0xFFFFFFFFFFFFFF7F = 0x0000000000000003) :
    decode w = .ok (.fill (w.getLsbD 7)) := by
  rw [← extractLsb'_one_beq_one]
  exact decode_of_matches_plainRow (name := "FILL") decodeFields_fill h

end Sys2Proof

namespace Sys2Proof.Machine

/-! ## The whole-framebuffer and byte commands (R69 to R73) -/

theorem exec_fill (normal : Bool) (s : State) :
    exec (.fill normal) s = .next (s.fillBytes (fillByte normal)) := rfl

theorem withAddress_inside {a : Nat} {s : State} (ha : a < s.geom.fbBytes) (t : State) :
    withAddress a s t = .next t :=
  if_neg (Nat.not_le.2 ha)

theorem exec_readByte_inside {a : Nat} {s : State} (ha : a < s.geom.fbBytes) :
    exec (.readByte a) s = .next (s.respond (s.byte a)) :=
  withAddress_inside ha _

theorem exec_writeByte_inside {a : Nat} {s : State} (ha : a < s.geom.fbBytes) (d : Byte) :
    exec (.writeByte a d) s = .next (s.storeByte a d) :=
  withAddress_inside ha _

/-- A byte command is refused exactly outside the framebuffer, for that reason alone (R71). -/
theorem exec_byteCommand_eq_refused_iff {i : Instr} {a : Nat} (hi : i = .readByte a ∨ ∃ d, i = .writeByte a d)
    (s : State) (r : Refusal) :
    exec i s = .refused r ↔ s.geom.fbBytes ≤ a ∧ r = .addressOutOfRange a := by
  constructor
  · intro h
    obtain ⟨a', hi', ha', rfl⟩ := exec_refused_cases h
    obtain rfl : a = a' := by
      rcases hi with rfl | ⟨d, rfl⟩ <;> simpa using hi'
    exact ⟨ha', rfl⟩
  · rintro ⟨ha, rfl⟩
    exact exec_byteCommand_outside hi ha

theorem execAll_cons_of_next {i : Instr} {s t : State} (h : exec i s = .next t) (is : List Instr) :
    execAll (i :: is) s = execAll is t := by
  simp only [execAll, h]

/-- Writing one byte twice is writing it once (R73). -/
theorem execAll_writeByte_writeByte {a : Nat} {s : State} (ha : a < s.geom.fbBytes) (hwf : s.fb.wf = true) (d : Byte) :
    execAll [.writeByte a d, .writeByte a d] s = exec (.writeByte a d) s := by
  have ha' : a < (s.storeByte a d).geom.fbBytes := ha
  calc execAll [.writeByte a d, .writeByte a d] s
      = execAll [.writeByte a d] (s.storeByte a d) := execAll_cons_of_next (exec_writeByte_inside ha d) _
    _ = .next ((s.storeByte a d).storeByte a d) := execAll_cons_of_next (exec_writeByte_inside ha' d) []
    _ = exec (.writeByte a d) s := by rw [storeByte_storeByte hwf, exec_writeByte_inside ha]

/-! ## The obligations -/

/-- Settles O35: NOP's row fixes every bit of the word, and its arm answers the state itself. -/
theorem nopDoesNothing : Obligations.NopDoesNothing :=
  ⟨fun _ => decode_of_matches_plainRow (name := "NOP") decodeFields_nop, fun _ => rfl⟩

/-- Settles O36: the filled memory is canonical and reads the fill byte at every address below `FB_BYTES`. -/
theorem fillWritesEveryByte : Obligations.FillWritesEveryByte :=
  ⟨fun _ => decode_of_masked_fill, fun s normal =>
    ⟨Memory.filled s.geom.fbBytes (fillByte normal), exec_fill normal s, Memory.wf_filled _ _,
      fun _ => Memory.read_filled _ _⟩⟩

/-- Settles O37: the address check depends on the geometry alone, which taking the command from the port keeps, so the
refused step is `afterRefusal`. -/
theorem byteCommandsRefuseOutsideTheFramebuffer : Obligations.ByteCommandsRefuseOutsideTheFramebuffer := by
  intro i a hi
  refine ⟨exec_byteCommand_eq_refused_iff hi, fun s input rest hp hd ha => ?_⟩
  have hstep : step s = .refused (.addressOutOfRange a) :=
    (step_of_command hp hd).trans (exec_byteCommand_outside hi ha)
  rw [advance_of_refused hstep, afterRefusal_of_port hp]

/-- Settles O38: the row's word decodes to READ_BYTE, whose address check lets the response through or refuses. -/
theorem readByteRespondsTheStoredByte : Obligations.ReadByteRespondsTheStoredByte :=
  ⟨fun _ => decode_of_matches_plainRow (name := "READ_BYTE") decodeFields_readByte, fun _ _ =>
    ⟨exec_readByte_inside, exec_byteCommand_outside (.inl rfl)⟩⟩

/-- Settles O39: below `FB_BYTES` the command is one `storeByte`, and storing the same byte again changes nothing; from
`FB_BYTES` on the address check refuses. -/
theorem writeByteStoresTheData : Obligations.WriteByteStoresTheData := by
  refine ⟨fun _ => decode_of_matches_plainRow (name := "WRITE_BYTE") decodeFields_writeByte, fun s a d =>
    ⟨fun ha => ⟨?_, fun hwf => execAll_writeByte_writeByte ha hwf d⟩, exec_byteCommand_outside (.inr ⟨d, rfl⟩)⟩⟩
  rw [exec_writeByte_inside ha]
  exact storesByte_storeByte s a d

end Sys2Proof.Machine

namespace Sys2Proof.Machine

/-! ## The rows a scan step selects and shifts (R76, R77) -/

theorem mem_rowGroup_iff (g : BitVec 2) (row : Nat) : row ∈ rowGroup g ↔ row < 16 ∧ row % 4 = g.toNat := by
  have := g.isLt
  simp only [rowGroup, List.mem_cons, List.not_mem_nil, or_false]
  omega

/-- A scan step sends exactly the addresses whose strip row is in the cursor's row group. -/
theorem mem_scanAddrs_iff (g : Geometry) (p : BitVec 2) (a : Nat) :
    a ∈ scanAddrs g p ↔ a / g.stripRowBytes ∈ rowGroup p := by
  have hp := p.isLt
  have hpos := g.stripRowBytes_pos
  simp only [mem_rowGroup_iff, scanAddrs, List.mem_flatMap, List.mem_range, List.mem_map]
  constructor
  · rintro ⟨i, hi, k, hk, rfl⟩
    have hrow : ((p.toNat + 4 * k) * g.stripRowBytes + i) / g.stripRowBytes = p.toNat + 4 * k := by
      rw [Nat.add_comm, Nat.add_mul_div_right i _ hpos, Nat.div_eq_of_lt hi, Nat.zero_add]
    have hband : k < 4 := by
      simp only [List.mem_cons, List.not_mem_nil, or_false] at hk
      omega
    rw [hrow]
    omega
  · rintro ⟨hlt, hmod⟩
    have hband : a / g.stripRowBytes / 4 < 4 := by omega
    have hrow : p.toNat + 4 * (a / g.stripRowBytes / 4) = a / g.stripRowBytes := by omega
    refine ⟨a % g.stripRowBytes, Nat.mod_lt a hpos, a / g.stripRowBytes / 4, ?_, ?_⟩
    · simp only [List.mem_cons, List.not_mem_nil, or_false]
      omega
    · rw [hrow, Nat.div_add_mod']

/-- A local row is lit when the rows are enabled and it is in the selected group. -/
theorem rowLit_eq_true_iff (s : State) (row : Nat) :
    s.rowLit row = true ↔ s.rowOe = true ∧ row < 16 ∧ row % 4 = s.rowSel.toNat := by
  rw [State.rowLit, Bool.and_eq_true, List.contains_iff_mem, mem_rowGroup_iff]

/-! ## SCAN_STEP's two outcomes and every other command's frame (R75, R76) -/

theorem exec_scanStep_busy {s : State} (h : s.busFree = false) : exec .scanStep s = .next s := by
  simp [exec, execScanStep, h]

theorem exec_scanStep_free {s : State} (h : s.busFree = true) : exec .scanStep s = .next (scanFree s) := by
  simp [exec, execScanStep, h]

/-- The cursor counts modulo the number of scan phases (R80). -/
theorem toNat_nextPhase (p : BitVec 2) : (p + 1).toNat = (p.toNat + 1) % 4 :=
  BitVec.toNat_add p 1

/-- The bytes of the two loops of R76 with the constants of R6. -/
theorem scanBytes_eq (s : State) :
    scanBytes s = (List.range (4 * s.geom.dt)).flatMap fun i =>
      [s.byte ((s.phase.toNat + 12) * (4 * s.geom.dt) + i), s.byte ((s.phase.toNat + 8) * (4 * s.geom.dt) + i),
       s.byte ((s.phase.toNat + 4) * (4 * s.geom.dt) + i), s.byte (s.phase.toNat * (4 * s.geom.dt) + i)] := by
  rw [scanBytes, scanAddrs, List.map_flatMap, Geometry.stripRowBytes_eq]
  rfl

/-- A done command other than a free scan step changes at most the framebuffer and the responses. -/
theorem exec_next_eq_of_not_freeScan {i : Instr} {s t : State} (h : exec i s = .next t)
    (hscan : ¬(i = .scanStep ∧ s.busFree = true)) :
    ∃ fb responses, t = { s with fb := fb, responses := responses } := by
  rcases exec_next_cases h with ⟨-, rfl⟩ | ⟨mode, x, y, v, -, rfl⟩ | ⟨x, y, -, rfl⟩ | ⟨normal, -, rfl⟩ |
    ⟨a, -, -, rfl⟩ | ⟨a, d, -, -, rfl⟩ | ⟨hi, rfl⟩
  · exact ⟨_, _, rfl⟩
  · exact ⟨_, _, writePixel_eq (compose mode) x y v s⟩
  · exact ⟨_, _, rfl⟩
  · exact ⟨_, _, rfl⟩
  · exact ⟨_, _, rfl⟩
  · exact ⟨_, _, rfl⟩
  · rw [if_neg fun hfree => hscan ⟨hi, hfree⟩]
    exact ⟨_, _, rfl⟩

/-! ## The obligations -/

/-- Settles O44: the busy branch of SCAN_STEP answers the state itself. -/
theorem busyBusSkipsTheScan : Obligations.BusyBusSkipsTheScan := fun _ => exec_scanStep_busy

/-- Settles O46: the row's word decodes to SCAN_STEP, and `scanFree_eq` lists what the free branch changes, with the
bytes of the two loops by `scanBytes_eq`. -/
theorem freeBusScansOneRowGroup : Obligations.FreeBusScansOneRowGroup := by
  refine ⟨fun _ => decode_of_matches_plainRow (name := "SCAN_STEP") decodeFields_scanStep, fun s =>
    ⟨exec_scanStep_busy, fun hfree => ?_⟩⟩
  have hphase : BitVec.ofNat 2 ((s.phase.toNat + 1) % 4) = s.phase + 1 := by
    rw [← toNat_nextPhase, BitVec.ofNat_toNat, BitVec.setWidth_eq]
  rw [exec_scanStep_free hfree, scanFree_eq, ← scanBytes_eq, hphase]
  simp only [List.append_assoc]

/-- Settles O48: a free scan step's row select is the cursor whose row group's addresses it sends
(`mem_scanAddrs_iff`), and no other command touches the cursor. -/
theorem scanSelectsTheShiftedGroupAndAdvances : Obligations.ScanSelectsTheShiftedGroupAndAdvances := by
  refine ⟨fun s hfree => ⟨scanFree s, exec_scanStep_free hfree, scanFree_rowSel s, ?_, ?_, scanFree_latched s, ?_, ?_⟩,
    fun i s t h hscan => ?_⟩
  · rw [State.lineA, scanFree_rowSel]
  · rw [State.lineB, scanFree_rowSel]
  · intro a ha
    rw [scanFree_rowSel]
    exact (mem_scanAddrs_iff _ _ a).1 ha
  · rw [scanFree_phase, toNat_nextPhase]
  · obtain ⟨fb, responses, rfl⟩ := exec_next_eq_of_not_freeScan h hscan
    rfl

/-- Settles O52: `rowLit_eq_true_iff` gives the rows, and the driven bytes follow the output enable. -/
theorem litRowsAreTheSelectedGroup : Obligations.LitRowsAreTheSelectedGroup := by
  refine fun s => ⟨fun row hrow => ?_, fun row hrow => ?_, fun hoe => if_pos hoe, fun hoe => ?_⟩
  · rw [rowLit_eq_true_iff]
    exact and_congr_right fun _ => and_iff_right hrow
  · rw [← Bool.not_eq_true, rowLit_eq_true_iff]
    omega
  · simp [State.drivenBytes, hoe]

end Sys2Proof.Machine

namespace Sys2Proof.Machine

/-! ## When a step is refused (R88, R89) -/

/-- A step is refused for a reserved word or for a byte command outside the framebuffer, and for nothing else. -/
theorem step_refused_cases {s : State} {r : Refusal} (h : step s = .refused r) :
    ∃ input rest, s.port = input :: rest ∧
      (((∃ e, decode input.word = .error e) ∧ r = .reservedEncoding input.word) ∨
        ∃ i a, decode input.word = .ok i ∧ (i = .readByte a ∨ ∃ d, i = .writeByte a d) ∧
          s.geom.fbBytes ≤ a ∧ r = .addressOutOfRange a) := by
  rcases step_cases s with ⟨-, hs⟩ | ⟨input, rest, hp, ⟨i, hd, hs⟩ | ⟨e, hd, hs⟩⟩ <;> rw [hs] at h
  · cases h
  · obtain ⟨a, hi, ha, hr⟩ := exec_refused_cases h
    exact ⟨input, rest, hp, .inr ⟨i, a, hd, hi, ha, hr⟩⟩
  · exact ⟨input, rest, hp, .inl ⟨⟨e, hd⟩, (Host.Outcome.refused.inj h).symm⟩⟩

/-- A step whose word decodes to a byte command outside the framebuffer is refused with that address. -/
theorem step_byteCommand_outside {s : State} {input : PortInput} {rest : List PortInput} {i : Instr} {a : Nat}
    (hp : s.port = input :: rest) (hd : decode input.word = .ok i) (hi : i = .readByte a ∨ ∃ d, i = .writeByte a d)
    (ha : s.geom.fbBytes ≤ a) : step s = .refused (.addressOutOfRange a) :=
  (step_of_command hp hd).trans (exec_byteCommand_outside hi ha)

/-- The refusal record and the port are no part of what a run shows (R11). -/
@[simp] theorem observe_afterRefusal (s : State) (r : Refusal) : (s.afterRefusal r).observe = s.observe := rfl

/-! ## The obligation -/

/-- Settles O11: `step_refused_cases` excludes every third reason, and a presented word with one of the two is refused
for it; a refused step leaves `afterRefusal`, and `advanceN` keeps the mark. -/
theorem stepRefusesForExactlyTwoReasons : Obligations.StepRefusesForExactlyTwoReasons := by
  refine fun s r => ⟨⟨fun h => ?_, ?_⟩, fun h => ?_, fun k => advanceN_keeps_refusalMark k⟩
  · obtain ⟨input, rest, hp, hreserved | ⟨i, a, hd, rfl | ⟨d, rfl⟩, hout⟩⟩ := step_refused_cases h
    · exact ⟨input, rest, hp, .inl hreserved⟩
    · exact ⟨input, rest, hp, .inr ⟨a, .inl hd, hout⟩⟩
    · exact ⟨input, rest, hp, .inr ⟨a, .inr ⟨d, hd⟩, hout⟩⟩
  · rintro ⟨input, rest, hp, ⟨⟨e, hd⟩, rfl⟩ | ⟨a, hd | ⟨d, hd⟩, ha, rfl⟩⟩
    · exact step_of_reserved hp hd
    · exact step_byteCommand_outside hp hd (.inl rfl) ha
    · exact step_byteCommand_outside hp hd (.inr ⟨d, rfl⟩) ha
  · rw [advance_of_refused h]
    exact ⟨rfl, observe_afterRefusal s r, refusalMark_afterRefusal s r⟩

end Sys2Proof.Machine

namespace Sys2Proof.Machine

/-! ## The geometry is fixed after reset (R27) -/

/-- A done command keeps the geometry: a free scan step by `scanFree_geom`, any other command by its frame. -/
theorem exec_next_geom {i : Instr} {s t : State} (h : exec i s = .next t) : t.geom = s.geom := by
  by_cases hscan : i = .scanStep ∧ s.busFree = true
  · obtain ⟨rfl, hfree⟩ := hscan
    rw [exec_scanStep_free hfree] at h
    cases h
    exact scanFree_geom s
  · obtain ⟨fb, responses, rfl⟩ := exec_next_eq_of_not_freeScan h hscan
    rfl

theorem step_next_geom {s t : State} (h : step s = .next t) : t.geom = s.geom := by
  rcases step_cases s with ⟨-, hs⟩ | ⟨input, rest, -, ⟨i, -, hs⟩ | ⟨e, -, hs⟩⟩ <;> rw [hs] at h
  · cases h
    rfl
  · rw [exec_next_geom h, State.taking_geom]
  · cases h

@[simp] theorem advance_geom (s : State) : (advance s).geom = s.geom := by
  cases hs : step s with
  | next t => rw [advance_of_next hs, step_next_geom hs]
  | fault f => exact nomatch f
  | refused r => rw [advance_of_refused hs, State.afterRefusal_geom]

@[simp] theorem advanceN_geom (k : Nat) (s : State) : (advanceN k s).geom = s.geom := by
  induction k generalizing s with
  | zero => rfl
  | succ k ih => exact (ih (advance s)).trans (advance_geom s)

/-! ## The state after reset (R98) -/

theorem byte_resetWith (g : Geometry) (a : Nat) : (State.resetWith g).byte a = 0xFF := Memory.read_nil a

/-- With the rows' output enable low no row is lit, whatever group is selected (R77). -/
theorem rowLit_of_rowOe_eq_false {s : State} (h : s.rowOe = false) (row : Nat) : s.rowLit row = false := by
  rw [State.rowLit, h, Bool.false_and]

/-! ## The obligation -/

/-- Settles O15: the fields are those `State.resetWith` lists, its empty memory reads `0xFF` at every address, its low
output enable leaves every row dark, and `advanceN_geom` keeps the geometry for any list of commands. -/
theorem resetStateIsAsSpecified : Obligations.ResetStateIsAsSpecified := by
  intro g s
  have hbyte : ∀ a, a < g.fbBytes → s.byte a = 0xFF := fun a _ => byte_resetWith g a
  have hdark : ∀ row, s.rowLit row = false := rowLit_of_rowOe_eq_false rfl
  have hfixed : ∀ (inputs : List PortInput) (k : Nat), (advanceN k { s with port := inputs }).geom = g :=
    fun inputs k => advanceN_geom k _
  exact ⟨rfl, hbyte, rfl, BitVec.getLsbD_zero, BitVec.getLsbD_zero, rfl, hdark, rfl, rfl, rfl, rfl, hfixed⟩

end Sys2Proof.Machine

namespace Sys2Proof

/-! ## The fields of a command decode to it, and a decoded command gives its fields back (R46 to R49, R51) -/

theorem coordOk_iff {x : Int} : coordOk x = true ↔ -32768 ≤ x ∧ x ≤ 32767 := by
  simp [coordOk]

theorem addrOk_iff {a : Nat} : addrOk a = true ↔ a < 65536 := by
  simp [addrOk]

/-- A coordinate in the signed range comes back from its 16-bit field (R47). -/
theorem toInt_ofInt_of_coordOk {x : Int} (h : coordOk x = true) : (BitVec.ofInt 16 x).toInt = x := by
  rw [coordOk_iff] at h
  exact BitVec.toInt_ofInt_eq_self (by decide) (by omega) (by omega)

@[simp] theorem coordOk_toInt (b : BitVec 16) : coordOk b.toInt = true := by
  have hle := BitVec.le_toInt b
  have hlt := BitVec.toInt_lt (x := b)
  rw [coordOk_iff]
  omega

/-- An address in the unsigned range comes back from its 16-bit field (R48). -/
theorem toNat_ofNat_of_addrOk {a : Nat} (h : addrOk a = true) : (BitVec.ofNat 16 a).toNat = a := by
  rw [BitVec.toNat_ofNat, Nat.mod_eq_of_lt (addrOk_iff.1 h)]

@[simp] theorem addrOk_toNat (b : BitVec 16) : addrOk b.toNat = true := addrOk_iff.2 b.isLt

/-- A one-bit operand comes back from its field (R45). -/
@[simp] theorem ofBool_beq_one (v : Bool) : (BitVec.ofBool v == 1#1) = v := by
  revert v
  decide

@[simp] theorem ofBool_beq_one_eq (b : BitVec 1) : BitVec.ofBool (b == 1#1) = b := by
  revert b
  decide

theorem wellFormed_writePixel (m : Mode) (x y : Int) (v : Bool) :
    (Instr.writePixel m x y v).wellFormed = (coordOk x && coordOk y) := by
  cases m <;> rfl

theorem encodeFields_writePixel (m : Mode) (x y : Int) (v : Bool) :
    encodeFields (.writePixel m x y v) = pixelFields m x y v := by
  cases m <;> rfl

theorem decodeFields_pixelFields (m : Mode) {x y : Int} (v : Bool) (h : (coordOk x && coordOk y) = true) :
    decodeFields (pixelFields m x y v) = .ok (.writePixel m x y v) := by
  obtain ⟨hx, hy⟩ := Bool.and_eq_true_iff.1 h
  rw [decodeFields_writePixel (m := m) rfl rfl]
  simp [pixelFields, whenZero, toInt_ofInt_of_coordOk hx, toInt_ofInt_of_coordOk hy]

theorem decodeFields_encodeFields {i : Instr} (h : i.wellFormed = true) : decodeFields (encodeFields i) = .ok i := by
  cases i with
  | nop => rfl
  | writePixelNormal x y v => exact decodeFields_pixelFields .normal v h
  | writePixelInverse x y v => exact decodeFields_pixelFields .inverse v h
  | writePixelToggle x y v => exact decodeFields_pixelFields .toggle v h
  | writePixelOr x y v => exact decodeFields_pixelFields .or v h
  | writePixelNor x y v => exact decodeFields_pixelFields .nor v h
  | readPixel x y =>
    obtain ⟨hx, hy⟩ := Bool.and_eq_true_iff.1 h
    rw [decodeFields_readPixel rfl]
    simp [encodeFields, whenZero, Fields.zeroBut, toInt_ofInt_of_coordOk hx, toInt_ofInt_of_coordOk hy]
  | fill v =>
    rw [decodeFields_fill rfl]
    simp [encodeFields, whenZero, Fields.zeroBut]
  | readByte a =>
    rw [decodeFields_readByte rfl]
    simp [encodeFields, whenZero, Fields.zeroBut, toNat_ofNat_of_addrOk h]
  | writeByte a d =>
    rw [decodeFields_writeByte rfl]
    simp [encodeFields, whenZero, Fields.zeroBut, toNat_ofNat_of_addrOk h]
  | scanStep => rfl

/-- Settles O1: the word's fields are those encoded (`fieldsOf_wordOf`), and each operand in its range
comes back from its field. -/
theorem encodedCommandDecodesToItself : Obligations.EncodedCommandDecodesToItself := by
  intro i h
  rw [decode, encode, fieldsOf_wordOf, decodeFields_encodeFields h]

/-- Every branch of the decoder that answers a command has checked the fields that the encoder sets to `0`, and its
operands determine the others. -/
theorem wellFormed_and_encodeFields_of_decodeFields {f : Fields} {i : Instr} (h : decodeFields f = .ok i) :
    i.wellFormed = true ∧ encodeFields i = f := by
  obtain ⟨op, mode, v, data, xa, y, rsvd⟩ := f
  rcases Fields.op_cases ⟨op, mode, v, data, xa, y, rsvd⟩ with
    hop | ⟨hop, m, hm⟩ | ⟨hop, hm⟩ | hop | hop | hop | hop | hop | hop
  · obtain ⟨hzero, rfl⟩ := whenZero_eq_ok_iff.1 ((decodeFields_nop hop).symm.trans h)
    simp_all [Fields.zeroBut_eq_true_iff, Instr.wellFormed, encodeFields]
  · obtain ⟨hzero, rfl⟩ := whenZero_eq_ok_iff.1 ((decodeFields_writePixel hop hm).symm.trans h)
    rw [wellFormed_writePixel, encodeFields_writePixel]
    simp_all [pixelFields]
  · exact nomatch (decodeFields_reservedMode hop hm).symm.trans h
  · obtain ⟨hzero, rfl⟩ := whenZero_eq_ok_iff.1 ((decodeFields_readPixel hop).symm.trans h)
    simp_all [Fields.zeroBut_eq_true_iff, Instr.wellFormed, encodeFields]
  · obtain ⟨hzero, rfl⟩ := whenZero_eq_ok_iff.1 ((decodeFields_fill hop).symm.trans h)
    simp_all [Fields.zeroBut_eq_true_iff, Instr.wellFormed, encodeFields]
  · obtain ⟨hzero, rfl⟩ := whenZero_eq_ok_iff.1 ((decodeFields_readByte hop).symm.trans h)
    simp_all [Fields.zeroBut_eq_true_iff, Instr.wellFormed, encodeFields]
  · obtain ⟨hzero, rfl⟩ := whenZero_eq_ok_iff.1 ((decodeFields_writeByte hop).symm.trans h)
    simp_all [Fields.zeroBut_eq_true_iff, Instr.wellFormed, encodeFields]
  · obtain ⟨hzero, rfl⟩ := whenZero_eq_ok_iff.1 ((decodeFields_scanStep hop).symm.trans h)
    simp_all [Fields.zeroBut_eq_true_iff, Instr.wellFormed, encodeFields]
  · exact nomatch (decodeFields_reservedOpcode hop).symm.trans h

/-- Settles O2: the decoded command's fields are the word's, and the word is made of its fields (`wordOf_fieldsOf`). -/
theorem decodedWordEncodesBack : Obligations.DecodedWordEncodesBack := by
  intro w i h
  obtain ⟨hwf, hfields⟩ := wellFormed_and_encodeFields_of_decodeFields h
  exact ⟨hwf, by rw [encode, hfields, wordOf_fieldsOf]⟩

end Sys2Proof

namespace Sys2Proof.Machine

/-! ## The assembler's lines (R56) -/

theorem coordOperand_eq (n : Int) : coordOperand n = if -32768 ≤ n ∧ n ≤ 32767 then some n else none := by
  simp only [coordOperand, coordOk_iff]

theorem bitOperand_eq (n : Int) : bitOperand n = if n = 0 ∨ n = 1 then some (n == 1) else none := by
  unfold bitOperand
  split_ifs <;> simp_all

/-- An operand that is rejected rejects the line. -/
theorem bind_if_some {α β : Type} (p : Prop) [Decidable p] (a : α) (k : α → Option β) :
    ((if p then some a else none) >>= k) = if p then k a else none := by
  split <;> rfl

theorem command_wpix (m : Mode) (x y v : Int) : AsmLine.command (.wpix m x y v) =
    if (-32768 ≤ x ∧ x ≤ 32767) ∧ (-32768 ≤ y ∧ y ≤ 32767) ∧ (v = 0 ∨ v = 1) then
      some (.writePixel m x y (v == 1)) else none := by
  simp only [AsmLine.command, AsmLine.expand, coordOperand_eq, bitOperand_eq, bind_if_some, ite_and (_ ∧ _)]
  rfl

theorem command_rpix (x y : Int) : AsmLine.command (.rpix x y) =
    if (-32768 ≤ x ∧ x ≤ 32767) ∧ (-32768 ≤ y ∧ y ≤ 32767) then some (.readPixel x y) else none := by
  simp only [AsmLine.command, AsmLine.expand, coordOperand_eq, bind_if_some, ite_and (_ ∧ _)]
  rfl

theorem command_fill (n : Int) : AsmLine.command (.fill n) = if n = 0 ∨ n = 1 then some (.fill (n == 1)) else none := by
  simp only [AsmLine.command, AsmLine.expand, bitOperand_eq, bind_if_some]
  rfl

theorem command_rbyte (a : Int) :
    AsmLine.command (.rbyte a) = if 0 ≤ a ∧ a ≤ 65535 then some (.readByte a.toNat) else none := by
  simp only [AsmLine.command, AsmLine.expand, addrOperand, bind_if_some]
  rfl

theorem command_wbyte (a d : Int) : AsmLine.command (.wbyte a d) =
    if (0 ≤ a ∧ a ≤ 65535) ∧ 0 ≤ d ∧ d ≤ 255 then some (.writeByte a.toNat (BitVec.ofInt 8 d)) else none := by
  simp only [AsmLine.command, AsmLine.expand, addrOperand, dataOperand, bind_if_some, ite_and (_ ∧ _)]
  rfl

/-- Settles O7: a pseudo-instruction's command is by definition its expansion's, and the other lines' commands are the
equations above. -/
theorem assemblerExpandsAndRejects : Obligations.AssemblerExpandsAndRejects :=
  ⟨⟨rfl, rfl⟩, fun _ _ => ⟨rfl, rfl, rfl⟩, command_wpix, command_rpix, command_fill, command_rbyte, command_wbyte⟩

theorem wellFormed_of_command_wpix {m : Mode} {x y v : Int} {i : Instr} (h : AsmLine.command (.wpix m x y v) = some i) :
    i.wellFormed = true := by
  rw [command_wpix, Option.ite_none_right_eq_some] at h
  obtain ⟨⟨hx, hy, -⟩, ⟨⟩⟩ := h
  rw [wellFormed_writePixel, Bool.and_eq_true_iff]
  exact ⟨coordOk_iff.2 hx, coordOk_iff.2 hy⟩

/-- The assembler's operand ranges are those of the fields. -/
theorem wellFormed_of_command {line : AsmLine} {i : Instr} (h : line.command = some i) : i.wellFormed = true := by
  cases line with
  | nop | scan | clear | clearLit =>
    cases h
    rfl
  | wpix m x y v => exact wellFormed_of_command_wpix h
  | rpix x y =>
    rw [command_rpix, Option.ite_none_right_eq_some] at h
    obtain ⟨⟨hx, hy⟩, ⟨⟩⟩ := h
    exact Bool.and_eq_true_iff.2 ⟨coordOk_iff.2 hx, coordOk_iff.2 hy⟩
  | fill n =>
    rw [command_fill, Option.ite_none_right_eq_some] at h
    obtain ⟨-, ⟨⟩⟩ := h
    rfl
  | rbyte a =>
    rw [command_rbyte, Option.ite_none_right_eq_some] at h
    obtain ⟨ha, ⟨⟩⟩ := h
    exact addrOk_iff.2 (by omega)
  | wbyte a d =>
    rw [command_wbyte, Option.ite_none_right_eq_some] at h
    obtain ⟨⟨ha, -⟩, ⟨⟩⟩ := h
    exact addrOk_iff.2 (by omega)
  | pset x y | pclr x y | pflip x y => exact wellFormed_of_command_wpix h

/-- Settles O6: an accepted line's command is well-formed, so its word decodes to it. -/
theorem assembledLineDecodesToItsCommand : Obligations.AssembledLineDecodesToItsCommand := by
  intro line w h
  obtain ⟨i, hi, rfl⟩ := Option.map_eq_some_iff.1 h
  have hwf := wellFormed_of_command hi
  exact ⟨i, hi, hwf, rfl, encodedCommandDecodesToItself i hwf⟩

/-- Settles O5: each word is decoded by evaluation. -/
theorem specWordsDecodeAsListed : Obligations.SpecWordsDecodeAsListed := by
  unfold Obligations.SpecWordsDecodeAsListed
  decide

end Sys2Proof.Machine

namespace Sys2Proof.Machine

/-! ## The port and the level of `bus_free` (R8, R75) -/

theorem step_of_empty_port {s : State} (h : s.port = []) : step s = .next s := by
  simp only [step, h]

/-- Taking a command overwrites the level that stood in the state. -/
theorem step_busFree {s : State} (h : s.port ≠ []) (level : Bool) : step { s with busFree := level } = step s := by
  obtain ⟨input, rest, hp⟩ := List.exists_cons_of_ne_nil h
  simp only [step, hp, State.taking]

theorem step_withFetchWord {w : Word} {i : Instr} (hd : decode w = .ok i) (s : State) :
    step (s.withFetchWord 64 w.toNat) = exec i s := by
  have hword : BitVec.ofNat 64 (w.toNat % 2 ^ 64) = w := by
    rw [Nat.mod_eq_of_lt w.isLt, BitVec.ofNat_toNat, BitVec.setWidth_eq]
  refine step_of_command (input := ⟨BitVec.ofNat 64 (w.toNat % 2 ^ 64), s.busFree⟩) rfl ?_
  rw [hword, hd]

/-- Settles O8: taking the command is setting the port and the level. -/
theorem stepRunsTheDecodedCommand : Obligations.StepRunsTheDecodedCommand := fun _ _ _ _ => step_of_command

/-- Settles O9: the empty port's branch answers the state itself. -/
theorem stepWithoutCommandChangesNothing : Obligations.StepWithoutCommandChangesNothing := fun _ => step_of_empty_port

/-- Settles O10: the word of 64 bits is placed unchanged, and its level is overwritten by the one already there. -/
theorem presentedWordRunsNext : Obligations.PresentedWordRunsNext :=
  ⟨fun s _ _ hd => step_withFetchWord hd s, fun _ level h => step_busFree h level⟩

theorem decode_scanStepWord : decode 0x0000000000000006 = .ok .scanStep := by decide

/-- Settles O45: the word decodes to SCAN_STEP, which a busy bus skips; neither the port nor the level is observed. -/
theorem busLevelComesWithTheCommand : Obligations.BusLevelComesWithTheCommand := by
  intro s level rest hp
  have hstep : step s = exec .scanStep { s with port := rest, busFree := level } :=
    step_of_command hp decode_scanStepWord
  refine ⟨hstep, ?_⟩
  rintro rfl
  rw [exec_scanStep_busy rfl] at hstep
  exact ⟨hstep, by rw [advance_of_next hstep]; rfl⟩

/-! ## The premise of no refusal (R88) -/

theorem noRefusal_iff (s : State) : s.noRefusal ↔ s.refusals = [] := by
  simp [State.noRefusal, State.refusalMark]

/-- One step keeps the mark clear exactly when it is done. -/
theorem advance_noRefusal_iff (s : State) : (advance s).noRefusal ↔ s.noRefusal ∧ ∃ t, step s = .next t := by
  cases hs : step s with
  | next t => simp [advance_of_next hs, noRefusal_iff, step_next_refusals hs]
  | fault f => exact nomatch f
  | refused r => simp [advance_of_refused hs, noRefusal_iff]

/-- The mark stays set, so a run that ends with it clear began so. -/
theorem noRefusal_of_advanceN (k : Nat) {s : State} (h : (advanceN k s).noRefusal) : s.noRefusal := by
  induction k generalizing s with
  | zero => exact h
  | succ k ih => exact ((advance_noRefusal_iff s).1 (ih h)).1

/-- Settles O12: a done step keeps the refusal record, a refused one makes it non-empty, and later steps keep it so. -/
theorem noRefusalMeansNoRefusedStep : Obligations.NoRefusalMeansNoRefusedStep := fun s =>
  ⟨advance_noRefusal_iff s, fun k => ⟨fun h => ⟨noRefusal_of_advanceN k h, h⟩, And.right⟩⟩

/-- Settles O14: every step keeps the geometry (`advance_geom`), by induction on their number. -/
theorem configurationNeverChanges : Obligations.ConfigurationNeverChanges := advanceN_geom

/-! ## The invariant of the block -/

/-- Settles O16: the empty memory is canonical, and the empty history drives the registers as reset sets them. -/
theorem invariantHoldsAtReset : Obligations.InvariantHoldsAtReset := fun _ =>
  { canonical := rfl
    inSpace := rfl
    stageFull := fun _ h => nomatch h
    beforeScan := fun _ => ⟨rfl, rfl, rfl⟩
    afterScan := fun h => absurd rfl h
    panelDriven := rfl }

/-- The invariant says nothing of the responses, the refusals, the level and the port, and of the framebuffer only its
form and its bound. -/
theorem inv_with_fb {s : State} (h : s.Inv) {fb : Memory} (hwf : fb.wf = true)
    (hbelow : fb.below s.geom.fbBytes = true) (responses : List Byte) (refusals : List Refusal) (level : Bool)
    (port : List PortInput) :
    ({ s with fb := fb, responses := responses, refusals := refusals, busFree := level, port := port } : State).Inv :=
  { h with canonical := hwf, inSpace := hbelow }

theorem inv_taking {s : State} (h : s.Inv) (input : PortInput) (rest : List PortInput) :
    (s.taking input rest).Inv := inv_with_fb h h.canonical h.inSpace _ _ _ _

theorem inv_afterRefusal {s : State} (h : s.Inv) (r : Refusal) : (s.afterRefusal r).Inv :=
  inv_with_fb h h.canonical h.inSpace _ _ _ _

theorem exec_scanStep_fb {s t : State} (h : exec .scanStep s = .next t) : t.fb = s.fb := by
  cases hfree : s.busFree with
  | true =>
    obtain rfl := Host.Outcome.next.inj ((exec_scanStep_free hfree).symm.trans h)
    exact scanFree_fb s
  | false =>
    obtain rfl := Host.Outcome.next.inj ((exec_scanStep_busy hfree).symm.trans h)
    rfl

/-- What a done command can do to the framebuffer: nothing, one byte inside the address space, or a fill. Every address
written has passed the bit-addresser or the byte commands' check. -/
theorem exec_next_fb_cases {i : Instr} {s t : State} (h : exec i s = .next t) :
    t.fb = s.fb ∨ (∃ a b, a < s.geom.fbBytes ∧ t.fb = s.fb.write a b) ∨ ∃ b, t.fb = Memory.filled s.geom.fbBytes b := by
  rcases exec_next_cases h with ⟨-, rfl⟩ | ⟨mode, x, y, v, -, rfl⟩ | ⟨x, y, -, rfl⟩ | ⟨normal, -, rfl⟩ |
    ⟨a, -, -, rfl⟩ | ⟨a, d, -, ha, rfl⟩ | ⟨rfl, -⟩
  · exact .inl rfl
  · rcases writePixel_cases (compose mode) x y v s with ⟨-, hw⟩ | ⟨a, m, -, ha, hw⟩ <;> rw [hw]
    · exact .inl rfl
    · exact .inr (.inl ⟨a, _, ha, rfl⟩)
  · exact .inl rfl
  · exact .inr (.inr ⟨_, rfl⟩)
  · exact .inl rfl
  · exact .inr (.inl ⟨a, d, ha, rfl⟩)
  · exact .inl (exec_scanStep_fb h)

theorem exec_next_wf {i : Instr} {s t : State} (h : exec i s = .next t) (hwf : s.fb.wf = true) : t.fb.wf = true := by
  rcases exec_next_fb_cases h with hfb | ⟨a, b, -, hfb⟩ | ⟨b, hfb⟩ <;> rw [hfb]
  · exact hwf
  · exact Memory.wf_write hwf a b
  · exact Memory.wf_filled _ b

theorem exec_next_below {i : Instr} {s t : State} (h : exec i s = .next t) (hbelow : s.fb.below s.geom.fbBytes = true) :
    t.fb.below s.geom.fbBytes = true := by
  rcases exec_next_fb_cases h with hfb | ⟨a, b, ha, hfb⟩ | ⟨b, hfb⟩ <;> rw [hfb]
  · exact hbelow
  · exact Memory.below_write b hbelow ha
  · exact Memory.below_filled _ b

/-- A free scan step establishes the clauses on the output stage anew, and its events drive the registers on from where
the earlier ones left them. -/
theorem inv_scanFree {s : State} (h : s.Inv) : (scanFree s).Inv where
  canonical := by rw [scanFree_fb, h.canonical]
  inSpace := by rw [scanFree_fb, scanFree_geom, h.inSpace]
  stageFull bytes hbytes := by
    rw [scanFree_latched] at hbytes
    rw [scanFree_geom, ← Option.some.inj hbytes, scanBytes_length]
  beforeScan hnone := by simp at hnone
  afterScan _ := ⟨scanFree_rowOe s, by rw [scanFree_phase, scanFree_rowSel]⟩
  panelDriven := by rw [scanFree_events, Panel.after_append, h.panelDriven, panel_after_scanEvents]

theorem inv_exec_next {i : Instr} {s t : State} (hinv : s.Inv) (h : exec i s = .next t) : t.Inv := by
  by_cases hscan : i = .scanStep ∧ s.busFree = true
  · obtain ⟨rfl, hfree⟩ := hscan
    obtain rfl := Host.Outcome.next.inj ((exec_scanStep_free hfree).symm.trans h)
    exact inv_scanFree hinv
  · have hwf := exec_next_wf h hinv.canonical
    have hbelow := exec_next_below h hinv.inSpace
    obtain ⟨fb, responses, rfl⟩ := exec_next_eq_of_not_freeScan h hscan
    exact inv_with_fb hinv hwf hbelow _ _ _ _

theorem inv_step_next {s t : State} (hinv : s.Inv) (h : step s = .next t) : t.Inv := by
  rcases step_cases s with ⟨-, hs⟩ | ⟨input, rest, -, ⟨i, -, hs⟩ | ⟨e, -, hs⟩⟩ <;> rw [hs] at h
  · exact Host.Outcome.next.inj h ▸ hinv
  · exact inv_exec_next (inv_taking hinv input rest) h
  · cases h

/-- Settles O17: a done command other than a free scan step leaves what the invariant speaks of, but for a framebuffer
written inside its address space; a free scan step establishes it anew (`inv_scanFree`); and a refused step
touches none of it. -/
theorem everyStepKeepsTheInvariant : Obligations.EveryStepKeepsTheInvariant := by
  refine fun s hinv => ⟨fun t => inv_step_next hinv, ?_⟩
  cases hs : step s with
  | next t => exact advance_of_next hs ▸ inv_step_next hinv hs
  | fault f => exact nomatch f
  | refused r => exact advance_of_refused hs ▸ inv_afterRefusal hinv r

/-! ## What a done command leaves as it was (10_state.md section 2) -/

/-- Settles O49: such a command changes at most the framebuffer and the responses. -/
theorem onlyABusFreeScanTouchesTheOutputs : Obligations.OnlyABusFreeScanTouchesTheOutputs := by
  intro i s t h hscan
  obtain ⟨fb, responses, rfl⟩ := exec_next_eq_of_not_freeScan h hscan
  exact ⟨rfl, rfl, rfl, rfl, rfl⟩

theorem exec_next_inputs {i : Instr} {s t : State} (h : exec i s = .next t) :
    t.busFree = s.busFree ∧ t.port = s.port := by
  by_cases hscan : i = .scanStep ∧ s.busFree = true
  · obtain ⟨rfl, hfree⟩ := hscan
    obtain rfl := Host.Outcome.next.inj ((exec_scanStep_free hfree).symm.trans h)
    exact ⟨scanFree_busFree s, scanFree_port s⟩
  · obtain ⟨fb, responses, rfl⟩ := exec_next_eq_of_not_freeScan h hscan
    exact ⟨rfl, rfl⟩

/-- Settles O50: the reads only respond, a scan step only reads the framebuffer, and a done command's frame holds the
geometry, the refusals and the inputs. -/
theorem onlyTheWritesTouchTheFramebuffer : Obligations.OnlyTheWritesTouchTheFramebuffer := by
  intro i s t h
  obtain ⟨-, -, -, -, hrefusals⟩ := exec_next_records h
  refine ⟨?_, exec_next_geom h, hrefusals, exec_next_inputs h⟩
  rintro (rfl | ⟨x, y, rfl⟩ | ⟨a, rfl⟩ | rfl)
  · obtain rfl : s = t := Host.Outcome.next.inj h
    rfl
  · obtain rfl := Host.Outcome.next.inj ((exec_readPixel x y s).symm.trans h)
    rfl
  · rw [eq_respond_of_exec_readByte h, State.respond_fb]
  · exact exec_scanStep_fb h

end Sys2Proof.Machine

namespace Sys2Proof.Machine

/-! ## The bit-addresser's formula, bijection and second form (R57 to R59) -/

/-- A pixel that the bit-addresser answers has natural coordinates on the screen, and the answer is `locate`'s. -/
theorem exists_natCast_of_addresser {g : Geometry} {x y : Int} {p : Nat × Byte} (h : addresser g x y = some p) :
    ∃ i j : Nat, x = i ∧ y = j ∧ i < 32 * g.dw ∧ j < 16 * g.dh ∧ p = locate g i j := by
  rcases addresser_cases g x y with ⟨-, hnone⟩ | ⟨hon, hsome⟩
  · exact nomatch hnone.symm.trans h
  · rw [onScreen_iff] at hon
    exact ⟨x.toNat, y.toNat, by omega, by omega, by omega, by omega, Option.some.inj (h.symm.trans hsome)⟩

/-- Settles O20: on natural coordinates, `locate`'s byte by `byteOf_eq`. -/
theorem addresserFollowsTheFormula : Obligations.AddresserFollowsTheFormula := by
  intro g x y hx hxw hy hyh
  lift x to Nat using hx
  lift y to Nat using hy
  refine ⟨_, _, addresser_natCast g (by omega) (by omega), ?_, rfl⟩
  rw [byteOf_eq, panelOf, Geometry.dt_eq, Config.panelW_eq, Config.panelH_eq]
  push_cast
  ring

theorem columnMask_inj {c d : Nat} (hc : c < 8) (hd : d < 8) (h : columnMask c = columnMask d) : c = d := by
  have hinj : ∀ c < 8, ∀ d < 8, columnMask c = columnMask d → c = d := by decide
  exact hinj c hc d hd h

/-- The inverse of the layout gives back the pixel that the bit-addresser took to a bit. -/
theorem pixelAt_of_addresser {g : Geometry} {x y : Int} {a c : Nat} (hc : c < 8)
    (h : addresser g x y = some (a, columnMask c)) : pixelAt g a c = (x, y) := by
  obtain ⟨i, j, rfl, rfl, hi, hj, hp⟩ := exists_natCast_of_addresser h
  obtain ⟨rfl, hmask⟩ := Prod.mk.inj hp
  have hpx : i / 32 < g.dw := Nat.div_lt_of_lt_mul hi
  have hpanel : i / 32 + g.dw * (j / 16) < g.dt := g.panel_lt hpx (Nat.div_lt_of_lt_mul hj)
  have hlx : i % 32 < 32 := Nat.mod_lt _ (by decide)
  have hcolumn : c = i % 32 % 8 := columnMask_inj hc (Nat.mod_lt _ (by decide)) hmask
  obtain ⟨hrow, hoffset⟩ := byteOf_div_mod g (j % 16) hpanel hlx
  have hfour := byteOf_mod_four g (i / 32 + g.dw * (j / 16)) (j % 16) hlx
  have hnumber : (4 * (i / 32 + g.dw * (j / 16)) + i % 32 / 8) / 4 = i / 32 + g.dw * (j / 16) := by omega
  have hplace : (i / 32 + g.dw * (j / 16)) % g.dw = i / 32 ∧ (i / 32 + g.dw * (j / 16)) / g.dw = j / 16 := by
    rw [Nat.add_mul_mod_self_left, Nat.mod_eq_of_lt hpx, Nat.add_mul_div_left _ _ g.dw_pos, Nat.div_eq_of_lt hpx]
    simp
  obtain ⟨hplacex, hplacey⟩ := hplace
  simp only [pixelAt, panelOf, Config.panelW_eq, Config.panelH_eq, hrow, hoffset, hfour, hnumber, hplacex, hplacey,
    Prod.mk.injEq]
  omega

theorem exists_mask_eq_columnMask {g : Geometry} {x y : Int} {a : Nat} {m : Byte} (h : addresser g x y = some (a, m)) :
    ∃ c < 8, m = columnMask c := by
  obtain ⟨i, j, -, -, -, -, hp⟩ := exists_natCast_of_addresser h
  exact ⟨_, Nat.mod_lt _ (by decide), (Prod.mk.inj hp).2⟩

/-- No two pixels share a bit of the framebuffer. -/
theorem addresser_inj {g : Geometry} {x y x' y' : Int} {p : Nat × Byte} (h : addresser g x y = some p)
    (h' : addresser g x' y' = some p) : (x, y) = (x', y') := by
  obtain ⟨a, m⟩ := p
  obtain ⟨c, hc, rfl⟩ := exists_mask_eq_columnMask h
  rw [← pixelAt_of_addresser hc h, pixelAt_of_addresser hc h']

/-- Settles O21: the inverse of the layout gives each bit a pixel (`addresser_pixelAt`) and is the only one that does
(`pixelAt_of_addresser`). -/
theorem everyFramebufferBitIsOnePixel : Obligations.EveryFramebufferBitIsOnePixel := fun g =>
  ⟨fun _ _ _ _ h => ⟨addresser_lt h, exists_mask_eq_columnMask h⟩, fun a c ha hc =>
    ⟨pixelAt g a c, addresser_pixelAt g ha hc, fun _ _ h => (pixelAt_of_addresser hc h).symm⟩⟩

theorem toNat_toInt_of_nonneg {b : BitVec 16} (h : 0 ≤ b.toInt) : b.toInt.toNat = b.toNat := by
  have hlt := b.isLt
  rw [BitVec.toInt_eq_toNat_cond] at h ⊢
  split at h <;> split <;> omega

/-- The two forms agree on coordinates that are not negative, whose fields are quotients and remainders. -/
theorem locate_toNat (g : Geometry) (x y : BitVec 16) :
    locate g x.toNat y.toNat =
      ((y.extractLsb' 0 4).toNat * g.stripRowBytes +
        ((x >>> 5).toNat + g.dw * (y >>> 4).toNat) * Config.bytesPerPanelRow + (x.extractLsb' 0 5 >>> 3).toNat,
      (0x80 : Byte) >>> ((x.extractLsb' 0 5).extractLsb' 0 3).toNat) := by
  simp only [locate, byteOf, panelOf, columnMask, BitVec.toNat_ushiftRight, BitVec.extractLsb'_toNat,
    Nat.shiftRight_eq_div_pow, pow_zero, Nat.div_one]

/-- Settles O23: on the screen a coordinate's 16 bits are its number, whose fields `locate_toNat` reads off. -/
theorem addresserByShiftsAgrees : Obligations.AddresserByShiftsAgrees := by
  intro g x y
  unfold addresserByShifts addresser
  split
  next hon =>
    rw [onScreen_iff] at hon
    obtain ⟨⟨hx, -⟩, hy, -⟩ := hon
    rw [toNat_toInt_of_nonneg hx, toNat_toInt_of_nonneg hy, locate_toNat]
  next => rfl

end Sys2Proof.Machine

namespace Sys2Proof.Machine

/-! ## The truth table of a pixel write (R66) -/

theorem storedBit_twoPow (b : Byte) {k : Nat} (hk : k < 8) : storedBit b (BitVec.twoPow 8 k) = b.getLsbD k := by
  have hne : ∀ k < 8, BitVec.twoPow 8 k ≠ 0 := by decide
  cases hb : b.getLsbD k with
  | true => simpa [storedBit_eq_true_iff, BitVec.and_twoPow, hb] using hne k hk
  | false => simp [storedBit_eq_false_iff, BitVec.and_twoPow, hb]

section
variable (b : Byte) {j k : Nat} (hj : j < 8)
include hj

theorem getLsbD_or_twoPow : (b ||| BitVec.twoPow 8 k).getLsbD j = if j = k then true else b.getLsbD j := by
  rw [BitVec.getLsbD_or, BitVec.getLsbD_twoPow]
  split
  next h => simp [← h, hj]
  next h => simp [Ne.symm h]

theorem getLsbD_and_not_twoPow : (b &&& ~~~BitVec.twoPow 8 k).getLsbD j = if j = k then false else b.getLsbD j := by
  rw [BitVec.getLsbD_and, BitVec.getLsbD_not, BitVec.getLsbD_twoPow]
  split
  next h => simp [← h, hj]
  next h => simp [Ne.symm h, hj]

theorem getLsbD_xor_twoPow : (b ^^^ BitVec.twoPow 8 k).getLsbD j = if j = k then !b.getLsbD k else b.getLsbD j := by
  rw [BitVec.getLsbD_xor, BitVec.getLsbD_twoPow]
  split
  next h => simp [← h, hj]
  next h => simp [Ne.symm h]

/-- Each mode sets, clears, flips or keeps the bit of its mask as the truth table says, and keeps the seven others
(R66 (a), (b)). -/
theorem getLsbD_compose (mode : Mode) (v : Bool) :
    (compose mode v b (BitVec.twoPow 8 k)).getLsbD j =
      if j = k then truthTable mode v (b.getLsbD k) else b.getLsbD j := by
  have hset := getLsbD_or_twoPow b (k := k) hj
  have hclear := getLsbD_and_not_twoPow b (k := k) hj
  have hflip := getLsbD_xor_twoPow b (k := k) hj
  have hkeep : b.getLsbD j = if j = k then b.getLsbD k else b.getLsbD j := by
    split
    next h => rw [h]
    next => rfl
  have hmask : b &&& BitVec.twoPow 8 k = 0 ∨ b &&& BitVec.twoPow 8 k = BitVec.twoPow 8 k := by
    rw [BitVec.and_twoPow]
    exact (ite_eq_or_eq _ _ _).symm
  match mode, v with
  | .normal, true => exact hclear
  | .normal, false => exact hset
  | .inverse, true => exact hset
  | .inverse, false => exact hclear
  | .toggle, true => exact hflip
  | .toggle, false => exact hkeep
  | .or, true => exact hclear
  | .or, false => exact hkeep
  | .nor, true =>
    rw [compose, composeNor_eq, or_mask_if_lit_eq hmask]
    exact hset
  | .nor, false => exact hkeep

end

/-! ## One pixel write on the screen: its pixel and every other (R66, R67) -/

theorem exists_address_of_pixelBit {s : State} {x y : Int} {bit : Bool} (h : pixelBit s x y = some bit) :
    ∃ a m, addresser s.geom x y = some (a, m) ∧ storedBit (s.byte a) m = bit := by
  obtain ⟨⟨a, m⟩, ha, hbit⟩ := Option.map_eq_some_iff.1 h
  exact ⟨a, m, ha, hbit⟩

theorem pixelBit_of_addresser {s : State} {x y : Int} {a : Nat} {m : Byte} (h : addresser s.geom x y = some (a, m)) :
    pixelBit s x y = some (storedBit (s.byte a) m) := by
  rw [pixelBit, h, Option.map_some]

section
variable {s : State} {x y : Int} {a : Nat} {m : Byte} (hwf : s.fb.wf = true)
  (h : addresser s.geom x y = some (a, m)) (mode : Mode) (v : Bool)
include hwf h

theorem pixelBit_storeByte_same :
    pixelBit (s.storeByte a (compose mode v (s.byte a) m)) x y = some (truthTable mode v (storedBit (s.byte a) m)) := by
  obtain ⟨k, hk, rfl⟩ := exists_mask_eq_twoPow h
  rw [pixelBit_of_addresser (s := s.storeByte a _) h, byte_storeByte hwf, if_pos rfl, storedBit_twoPow _ hk,
    storedBit_twoPow _ hk, getLsbD_compose _ hk, if_pos rfl]

/-- Another pixel has another byte or, in the same byte, another bit. -/
theorem pixelBit_storeByte_other {x' y' : Int} (hne : (x', y') ≠ (x, y)) :
    pixelBit (s.storeByte a (compose mode v (s.byte a) m)) x' y' = pixelBit s x' y' := by
  cases h' : addresser s.geom x' y' with
  | none => rw [pixelBit, pixelBit, State.storeByte_geom, h', Option.map_none, Option.map_none]
  | some p =>
    obtain ⟨a', m'⟩ := p
    rw [pixelBit_of_addresser (s := s.storeByte a _) h', pixelBit_of_addresser h', byte_storeByte hwf]
    split
    next heq =>
      subst heq
      obtain ⟨k, hk, rfl⟩ := exists_mask_eq_twoPow h
      obtain ⟨j, hj, rfl⟩ := exists_mask_eq_twoPow h'
      have hjk : j ≠ k := by
        rintro rfl
        exact hne (addresser_inj h' h)
      rw [storedBit_twoPow _ hj, storedBit_twoPow _ hj, getLsbD_compose _ hj, if_neg hjk]
    next => rfl

end

/-- Settles O30: the write is one `storeByte`, under which the pixel's own bit is the truth table's and every other
pixel's is as before; the response is READ_PIXEL's of the stored bit. -/
theorem pixelWriteChangesExactlyItsPixel : Obligations.PixelWriteChangesExactlyItsPixel := by
  intro s mode x y v existing hwf hbit
  obtain ⟨a, m, h, rfl⟩ := exists_address_of_pixelBit hbit
  have hsame := pixelBit_storeByte_same hwf h mode v
  refine ⟨s.storeByte a (compose mode v (s.byte a) m), ?_, Memory.wf_write hwf a _, hsame,
    fun x' y' => pixelBit_storeByte_other hwf h mode v, ?_⟩
  · rw [exec_writePixel, writePixel_onScreen h]
  · rw [exec_readPixel, hsame]
    rfl

/-- Settles O31: every mode's function but TOGGLE's with `v = 1` is idempotent, and that one is its own inverse. -/
theorem pixelWriteTwiceIsOnceExceptToggle : Obligations.PixelWriteTwiceIsOnceExceptToggle := fun _ x y hwf =>
  ⟨fun _ _ hmode _ => exec_writePixel_idempotent hmode hwf, execAll_toggle_toggle x y true hwf⟩

/-- NOR with `v = 1` sets the bit, whether or not it was set. -/
theorem writePixel_nor_eq_inverse (x y : Int) (s : State) :
    writePixel composeNor x y true s = writePixel composeInverse x y true s := by
  cases h : addresser s.geom x y with
  | none => rw [writePixel_offScreen h, writePixel_offScreen h]
  | some p =>
    have hmux := or_mask_if_lit_eq (and_mask_eq_zero_or_mask h (s.byte p.1)) true
    rw [← composeNor_eq] at hmux
    rw [writePixel_onScreen h, writePixel_onScreen h, hmux]
    rfl

/-- Settles O32: NOR is INVERSE under a one-bit mask; the other equal modes have the same branch of the mux, and the
identities' branch is the existing byte. -/
theorem modesThatAreEqualFunctions : Obligations.ModesThatAreEqualFunctions := by
  intro s x y hwf
  have hkeep (mux : Bool → Byte → Byte → Byte) (h : ∀ b m, mux false b m = b) : writePixel mux x y false s = s :=
    (writePixel_congr (mux' := fun _ b _ => b) h x y s).trans (writePixel_existing x y false hwf)
  exact ⟨congrArg _ (writePixel_nor_eq_inverse x y s), rfl, rfl, rfl, congrArg _ (hkeep composeToggle fun _ _ => rfl),
    congrArg _ (hkeep composeOr fun _ _ => rfl), congrArg _ (hkeep composeNor fun _ _ => rfl)⟩

end Sys2Proof.Machine

namespace Sys2Proof.Machine

/-! ## The byte commands beside the pixel commands and FILL (R38, R74) -/

/-- Settles O40: inside the framebuffer the byte commands are done; READ_BYTE's byte holds the stored bit, and NORMAL
stores what the WRITE_BYTE does. -/
theorem byteAndPixelViewsAgree : Obligations.ByteAndPixelViewsAgree := by
  intro s x y a m h
  have ha := addresser_lt h
  have hwrite (v : Bool) : exec (.writePixelNormal x y v) s = exec (.writeByte a (composeNormal v (s.byte a) m)) s := by
    rw [exec_writeByte_inside ha, ← writePixel_onScreen h]
    rfl
  refine ⟨⟨s.byte a, exec_readByte_inside ha, ?_⟩, hwrite true, hwrite false⟩
  rw [pixelBit_of_addresser h, Option.some_inj, Bool.eq_iff_iff, decide_eq_true_iff, storedBit_eq_true_iff]

/-- A list of WRITE_BYTEs of one byte inside the framebuffer is done, and writes to the framebuffer alone. -/
theorem execAll_writeByte (b : Byte) {addrs : List Nat} {s : State} (h : ∀ a ∈ addrs, a < s.geom.fbBytes) :
    execAll (addrs.map fun a => .writeByte a b) s =
      .next { s with fb := addrs.foldl (fun m a => m.write a b) s.fb } := by
  induction addrs generalizing s with
  | nil => rfl
  | cons a addrs ih =>
    obtain ⟨ha, hrest⟩ := List.forall_mem_cons.1 h
    exact (execAll_cons_of_next (exec_writeByte_inside ha b) _).trans (ih (s := s.storeByte a b) hrest)

section
variable (b : Byte) {n : Nat} {m : Memory}

theorem wf_foldl_write (addrs : List Nat) (hwf : m.wf = true) : (addrs.foldl (fun m a => m.write a b) m).wf = true := by
  induction addrs generalizing m with
  | nil => exact hwf
  | cons a addrs ih => exact ih (Memory.wf_write hwf a b)

theorem read_foldl_write (addrs : List Nat) (hwf : m.wf = true) (a : Nat) :
    (addrs.foldl (fun m a => m.write a b) m).read a = if a ∈ addrs then b else m.read a := by
  induction addrs generalizing m with
  | nil => simp
  | cons k addrs ih =>
    rw [List.foldl_cons, ih (Memory.wf_write hwf k b), Memory.read_write hwf]
    simp only [List.mem_cons]
    by_cases ha : a ∈ addrs
    · simp [ha]
    · simp [ha, eq_comm]

/-- Writing one byte at every address of a memory's space fills it. -/
theorem foldl_write_range_eq_filled (hwf : m.wf = true) (hbelow : m.below n = true) :
    (List.range n).foldl (fun m a => m.write a b) m = Memory.filled n b := by
  refine Memory.ext_of_wf (wf_foldl_write b _ hwf) (Memory.wf_filled n b) fun a => ?_
  rw [read_foldl_write b _ hwf]
  by_cases ha : a < n
  · rw [if_pos (List.mem_range.2 ha), Memory.read_filled n b ha]
  · rw [if_neg (List.mem_range.not.2 ha), Memory.read_of_below hbelow (Nat.not_lt.1 ha),
      Memory.read_of_below (Memory.below_filled n b) (Nat.not_lt.1 ha)]

end

/-- Settles O41: the writes leave a canonical memory that reads as the filled one at every address, so it is that
memory. -/
theorem fillEqualsWritingEveryByte : Obligations.FillEqualsWritingEveryByte := by
  intro s normal hwf hbelow
  have hwrites := execAll_writeByte (fillByte normal) (s := s) fun a => List.mem_range.1
  rw [foldl_write_range_eq_filled _ hwf hbelow] at hwrites
  exact hwrites

/-- Settles O42: both commands are done, and the byte read is the memory's after the write (`byte_storeByte`). -/
theorem readAfterWriteSeesTheWrite : Obligations.ReadAfterWriteSeesTheWrite := by
  intro s a a' d hwf ha ha'
  refine ⟨s.storeByte a d, exec_writeByte_inside ha d, ?_⟩
  rw [exec_readByte_inside (s := s.storeByte a d) ha', byte_storeByte hwf]
  simp only [eq_comm, State.respond]

/-! ## Side effects and idempotence (R35) -/

theorem eq_of_exec_read {i : Instr} {s t : State} (hi : (∃ x y, i = .readPixel x y) ∨ ∃ a, i = .readByte a)
    (h : exec i s = .next t) : t = { s with responses := t.responses } := by
  rcases hi with ⟨x, y, rfl⟩ | ⟨a, rfl⟩
  · obtain rfl := Host.Outcome.next.inj ((exec_readPixel x y s).symm.trans h)
    rfl
  · rw [eq_respond_of_exec_readByte h]
    rfl

theorem exec_fill_idempotent {normal : Bool} {s t : State} (h : exec (.fill normal) s = .next t) :
    exec (.fill normal) t = .next t := by
  obtain rfl := Host.Outcome.next.inj ((exec_fill normal s).symm.trans h)
  rfl

theorem exec_writeByte_idempotent {a : Nat} {d : Byte} {s t : State} (hwf : s.fb.wf = true)
    (h : exec (.writeByte a d) s = .next t) : exec (.writeByte a d) t = .next t := by
  rcases withAddress_cases a s (s.storeByte a d) with ⟨-, hw⟩ | ⟨ha, hw⟩
  · exact nomatch hw.symm.trans h
  · obtain rfl := Host.Outcome.next.inj (hw.symm.trans h)
    rw [exec_writeByte_inside (s := s.storeByte a d) ha, storeByte_storeByte hwf]

/-- Flipping a mask's bit changes the byte. -/
theorem xor_ne_self {b m : Byte} (hm : m ≠ 0) : b ^^^ m ≠ b := fun h =>
  hm ((BitVec.xor_right_inj b).1 (h.trans BitVec.xor_zero.symm))

theorem exec_toggle_ne_self {x y : Int} {s : State} (hwf : s.fb.wf = true)
    (hon : (addresser s.geom x y).isSome = true) : exec (.writePixelToggle x y true) s ≠ .next s := by
  obtain ⟨⟨a, m⟩, ha⟩ := Option.isSome_iff_exists.1 hon
  intro h
  have hs : s.storeByte a (s.byte a ^^^ m) = s :=
    (writePixel_onScreen ha composeToggle true).symm.trans (Host.Outcome.next.inj h)
  have hbyte : s.byte a ^^^ m = s.byte a := by
    conv_rhs => rw [← hs, byte_storeByte hwf, if_pos rfl]
  exact xor_ne_self (mask_ne_zero ha) hbyte

/-- A free scan step moves the cursor. -/
theorem scanFree_ne_self (s : State) : scanFree s ≠ s := by
  have hnext : ∀ p : BitVec 2, p + 1 ≠ p := by decide
  intro h
  exact hnext s.phase ((scanFree_phase s).symm.trans (congrArg State.phase h))

/-- Settles O43: a toggle flips a bit, and a free scan step moves the cursor, in every state, so also in the state after
one; the three others give the same state the second time. -/
theorem sideEffectsAndIdempotence : Obligations.SideEffectsAndIdempotence := by
  refine fun s => ⟨fun i t hi => eq_of_exec_read hi, fun normal t => exec_fill_idempotent,
    fun a d t hwf => exec_writeByte_idempotent hwf, fun x y t hwf hon h => ?_, fun hfree t h => ?_⟩
  · refine exec_toggle_ne_self (exec_next_wf h hwf) ?_
    rwa [exec_next_geom h]
  · obtain ⟨hlevel, -⟩ := exec_next_inputs h
    rw [exec_scanStep_free (hlevel.trans hfree)]
    exact fun hself => scanFree_ne_self t (Host.Outcome.next.inj hself)

end Sys2Proof.Machine

namespace Sys2Proof.Machine

/-! ## The addresses of a scan step (R76, R78) -/

/-- Four numbers per column, columns in order: the `j`-th is the `j % 4`-th of column `j / 4`. -/
theorem flatMap_bands_eq_map (f : Nat → Nat → Nat) (n : Nat) :
    ((List.range n).flatMap fun i => [3, 2, 1, 0].map fun k => f i k) =
      (List.range (4 * n)).map fun j => f (j / 4) (3 - j % 4) := by
  induction n with
  | zero => rfl
  | succ n ih =>
    have hsplit : List.range (4 * (n + 1)) = List.range (4 * n) ++ (List.range 4).map (4 * n + ·) := by
      rw [Nat.mul_succ, List.range_add]
    have hcolumn : ∀ k < 4, (4 * n + k) / 4 = n ∧ 3 - (4 * n + k) % 4 = 3 - k := by omega
    rw [List.range_succ, List.flatMap_append, ih, hsplit, List.map_append, List.map_map]
    congr 1
    simp [List.range_succ, hcolumn]

theorem scanAddrs_eq_map (g : Geometry) (p : BitVec 2) :
    scanAddrs g p =
      (List.range (16 * g.dt)).map fun j => (p.toNat + 4 * (3 - j % 4)) * g.stripRowBytes + j / 4 := by
  rw [scanAddrs, flatMap_bands_eq_map fun i k => (p.toNat + 4 * k) * g.stripRowBytes + i, Geometry.stripRowBytes_eq,
    ← Nat.mul_assoc]

theorem scanAddrs_getElem? (g : Geometry) (p : BitVec 2) {j : Nat} (hj : j < 16 * g.dt) :
    (scanAddrs g p)[j]? = some ((p.toNat + 4 * (3 - j % 4)) * g.stripRowBytes + j / 4) := by
  rw [scanAddrs_eq_map, List.getElem?_map, List.getElem?_range hj, Option.map_some]

/-- Row and column of the `j`-th address determine `j`. -/
theorem scanAddrs_nodup (g : Geometry) (p : BitVec 2) : (scanAddrs g p).Nodup := by
  rw [scanAddrs_eq_map]
  refine List.Nodup.map_on (fun j hj j' hj' h => ?_) List.nodup_range
  have hlt : ∀ j ∈ List.range (16 * g.dt), j / 4 < g.stripRowBytes := by
    simp only [List.mem_range, Geometry.stripRowBytes_eq]
    omega
  have hrow := congrArg (· / g.stripRowBytes) h
  have hcolumn := congrArg (· % g.stripRowBytes) h
  simp only [Nat.mul_comm _ g.stripRowBytes, Nat.mul_add_div g.stripRowBytes_pos, Nat.mul_add_mod,
    Nat.div_eq_of_lt (hlt _ hj), Nat.div_eq_of_lt (hlt _ hj'), Nat.mod_eq_of_lt (hlt _ hj),
    Nat.mod_eq_of_lt (hlt _ hj')] at hrow hcolumn
  omega

/-- The addresses sent are those of the framebuffer in the strip rows `p`, `p + 4`, `p + 8` and `p + 12`. -/
theorem mem_scanAddrs_iff_lt (g : Geometry) (p : BitVec 2) (a : Nat) :
    a ∈ scanAddrs g p ↔ a < g.fbBytes ∧ a / g.stripRowBytes % 4 = p.toNat := by
  rw [mem_scanAddrs_iff, mem_rowGroup_iff, Geometry.fbBytes_eq_rows, Nat.div_lt_iff_lt_mul g.stripRowBytes_pos]

/-- Settles O47: the list of addresses in closed form gives its length and its `j`-th entry, no entry occurs twice, and
the entries are those in the rows of the cursor's group. -/
theorem scanSendsEachByteOfItsRowsOnce : Obligations.ScanSendsEachByteOfItsRowsOnce := by
  refine fun s => ⟨(scanBytes_length s).trans s.geom.bytesPerScan_eq, fun j hj => ⟨scanAddrs_getElem? _ _ hj, ?_⟩,
    scanAddrs_nodup _ _, mem_scanAddrs_iff_lt _ _⟩
  rw [scanBytes, List.getElem?_map, scanAddrs_getElem? _ _ hj, Option.map_some]

/-- Settles O54: the address is among those the scan step sends, and its byte stands at the same place of the output
stage. -/
theorem scanAfterWriteTransmitsTheWrite : Obligations.ScanAfterWriteTransmitsTheWrite := by
  intro s a d hwf hfree ha hrow
  obtain ⟨j, hj⟩ := List.mem_iff_getElem?.1 ((mem_scanAddrs_iff_lt s.geom s.phase a).2 ⟨ha, hrow⟩)
  refine ⟨s.storeByte a d, scanFree (s.storeByte a d), scanBytes (s.storeByte a d), j, exec_writeByte_inside ha d,
    exec_scanStep_free hfree, scanFree_latched _, hj, ?_⟩
  rw [scanBytes, List.getElem?_map, State.storeByte_geom, State.storeByte_phase, hj, Option.map_some,
    byte_storeByte hwf, if_pos rfl]

/-- Settles O55: while the output stage is unknown the rows are disabled and the cursor is 0, so the first free scan
step selects and sends group 0. -/
theorem darkUntilTheFirstFreeScan : Obligations.DarkUntilTheFirstFreeScan := by
  intro s hinv hnone
  obtain ⟨hoe, -, hphase⟩ := hinv.beforeScan hnone
  refine ⟨rowLit_of_rowOe_eq_false hoe, fun hfree => ⟨scanFree s, exec_scanStep_free hfree, fun row => ?_, ?_⟩⟩
  · have hzero : (0 : BitVec 2).toNat = 0 := rfl
    rw [rowLit_eq_true_iff, scanFree_rowSel, hphase, hzero, and_iff_right (scanFree_rowOe s)]
    omega
  · rw [scanFree_latched, scanBytes_eq, hphase]
    simp

/-! ## Four free scan steps (R82) -/

/-- The events of a free scan step whose cursor stands at `p`. -/
def groupEvents (s : State) (p : BitVec 2) : List Event :=
  ((scanAddrs s.geom p).map s.byte).map .tx ++ [.oe false, .latch, .rowSel p, .oe true]

theorem scanFree_events_eq (s : State) : (scanFree s).events = s.events ++ groupEvents s s.phase := scanFree_events s

/-- A scan step changes nothing that a later one's events depend on, but for the cursor. -/
@[simp] theorem groupEvents_scanFree (s : State) : groupEvents (scanFree s) = groupEvents s := by
  have hbyte : (scanFree s).byte = s.byte := funext fun a => congrArg (Memory.read · a) (scanFree_fb s)
  funext p
  rw [groupEvents, scanFree_geom, hbyte, groupEvents]

theorem filterMap_flatMap_groupEvents_tx {f : Event → Option Byte} (htx : ∀ b, f (.tx b) = some b)
    (hoe : ∀ e, f (.oe e) = none) (hlatch : f .latch = none) (hsel : ∀ g, f (.rowSel g) = none) (s : State)
    (ps : List (BitVec 2)) :
    (ps.flatMap (groupEvents s)).filterMap f = (ps.flatMap (scanAddrs s.geom)).map s.byte := by
  have hgroup (p : BitVec 2) : (groupEvents s p).filterMap f = (scanAddrs s.geom p).map s.byte := by
    simp [groupEvents, List.filterMap_map, Function.comp_def, htx, hoe, hlatch, hsel]
  rw [List.filterMap_flatMap, List.map_flatMap]
  simp only [hgroup]

theorem filterMap_flatMap_groupEvents_rowSel {f : Event → Option (BitVec 2)} (htx : ∀ b, f (.tx b) = none)
    (hoe : ∀ e, f (.oe e) = none) (hlatch : f .latch = none) (hsel : ∀ g, f (.rowSel g) = some g) (s : State)
    (ps : List (BitVec 2)) : (ps.flatMap (groupEvents s)).filterMap f = ps := by
  have hgroup (p : BitVec 2) : (groupEvents s p).filterMap f = [p] := by
    simp [groupEvents, htx, hoe, hlatch, hsel]
  rw [List.filterMap_flatMap]
  simp only [hgroup, List.flatMap_singleton']

/-- The level decides whether a scan step is done, not what a free one does. -/
theorem scanFree_busFree_comm (s : State) (level : Bool) :
    scanFree { s with busFree := level } = { scanFree s with busFree := level } := by
  rw [scanFree_eq, scanFree_eq]
  rfl

theorem iterate_scanFree_busFree_comm (n : Nat) (s : State) (level : Bool) :
    scanFree^[n] { s with busFree := level } = { scanFree^[n] s with busFree := level } := by
  induction n generalizing s with
  | zero => rfl
  | succ n ih => rw [Function.iterate_succ_apply, Function.iterate_succ_apply, scanFree_busFree_comm, ih]

theorem scanRun_cons_of_next {level : Bool} {s t : State} (h : exec .scanStep { s with busFree := level } = .next t)
    (levels : List Bool) : scanRun (level :: levels) s = scanRun levels t := by
  simp only [scanRun, h]

/-- A run of scan steps is done, and does a free one for every free level, whatever skips stand between. -/
theorem scanRun_eq (levels : List Bool) (s : State) :
    ∃ level, scanRun levels s = .next { scanFree^[levels.count true] s with busFree := level } := by
  induction levels generalizing s with
  | nil => exact ⟨s.busFree, rfl⟩
  | cons level levels ih =>
    cases level with
    | false =>
      obtain ⟨last, hlast⟩ := ih { s with busFree := false }
      refine ⟨last, ?_⟩
      rw [scanRun_cons_of_next (exec_scanStep_busy rfl), hlast, iterate_scanFree_busFree_comm,
        List.count_cons_of_ne (by decide)]
    | true =>
      obtain ⟨last, hlast⟩ := ih (scanFree { s with busFree := true })
      refine ⟨last, ?_⟩
      rw [scanRun_cons_of_next (exec_scanStep_free rfl), hlast, scanFree_busFree_comm, iterate_scanFree_busFree_comm,
        List.count_cons_self, Function.iterate_succ_apply]

/-- The row groups in the order of a round that begins at a cursor. -/
def roundPhases (p : BitVec 2) : List (BitVec 2) := [p, p + 1, p + 2, p + 3]

theorem mem_roundPhases (p q : BitVec 2) : q ∈ roundPhases p := by
  revert p q
  decide

theorem roundPhases_nodup (p : BitVec 2) : (roundPhases p).Nodup := by
  revert p
  decide

/-- Four cursor steps return to the start. -/
theorem phase_cycle (p : BitVec 2) : p + 1 + 1 = p + 2 ∧ p + 2 + 1 = p + 3 ∧ p + 3 + 1 = p := by
  revert p
  decide

/-- Two row groups have no strip row in common. -/
theorem scanAddrs_disjoint (g : Geometry) {p q : BitVec 2} (h : p ≠ q) : (scanAddrs g p).Disjoint (scanAddrs g q) := by
  intro a hp hq
  rw [mem_scanAddrs_iff_lt] at hp hq
  exact h (BitVec.eq_of_toNat_eq (hp.2.symm.trans hq.2))

/-- The addresses of a round are all those of the framebuffer, each once: every strip row is in exactly one group. -/
theorem roundAddrs_perm (g : Geometry) (p : BitVec 2) :
    ((roundPhases p).flatMap (scanAddrs g)).Perm (List.range g.fbBytes) := by
  have hnodup : ((roundPhases p).flatMap (scanAddrs g)).Nodup :=
    List.nodup_flatMap.2 ⟨fun q _ => scanAddrs_nodup g q, (roundPhases_nodup p).imp (scanAddrs_disjoint g)⟩
  refine (List.perm_ext_iff_of_nodup hnodup List.nodup_range).2 fun a => ?_
  rw [List.mem_flatMap, List.mem_range]
  constructor
  · rintro ⟨q, -, hq⟩
    exact ((mem_scanAddrs_iff_lt g q a).1 hq).1
  · intro ha
    have hrow : (BitVec.ofNat 2 (a / g.stripRowBytes)).toNat = a / g.stripRowBytes % 4 := BitVec.toNat_ofNat _ 2
    exact ⟨_, mem_roundPhases p _, (mem_scanAddrs_iff_lt g _ a).2 ⟨ha, hrow.symm⟩⟩

/-- What four free scan steps do. -/
theorem iterate_scanFree_four (s : State) :
    (scanFree^[4] s).fb = s.fb ∧ (scanFree^[4] s).phase = s.phase ∧
      (scanFree^[4] s).events = s.events ++ (roundPhases s.phase).flatMap (groupEvents s) := by
  obtain ⟨h2, h3, h4⟩ := phase_cycle s.phase
  have hiterate : scanFree^[4] s = scanFree (scanFree (scanFree (scanFree s))) := rfl
  simp only [hiterate, scanFree_fb, scanFree_phase, scanFree_events_eq, groupEvents_scanFree, h2, h3, h4, roundPhases,
    List.flatMap_cons, List.flatMap_nil, List.append_nil, List.append_assoc, and_self]

/-- A run with four free levels is done and ends as a round does. -/
theorem scanRun_round {levels : List Bool} (h : levels.count true = 4) (s : State) :
    ∃ t, scanRun levels s = .next t ∧ t.fb = s.fb ∧ t.phase = s.phase ∧
      t.events = s.events ++ (roundPhases s.phase).flatMap (groupEvents s) := by
  obtain ⟨level, hrun⟩ := scanRun_eq levels s
  have hround := iterate_scanFree_four s
  rw [h] at hrun
  generalize scanFree^[4] s = u at hrun hround
  exact ⟨_, hrun, hround⟩

/-- Settles O53: the run does four free scan steps (`scanRun_round`), each with its group's bytes and row select, and
the four groups' addresses are the framebuffer's (`roundAddrs_perm`). -/
theorem fourFreeScansMakeARound : Obligations.FourFreeScansMakeARound := by
  intro s levels hcount
  obtain ⟨t, hrun, hfb, hphase, hevents⟩ := scanRun_round hcount s
  refine ⟨t, _, (roundPhases s.phase).flatMap (scanAddrs s.geom), hrun, hfb, hphase, hevents, ?_, ?_,
    roundAddrs_perm s.geom s.phase, _, exec_scanStep_free rfl, (scanFree_rowSel _).trans hphase⟩
  · exact filterMap_flatMap_groupEvents_rowSel (fun _ => rfl) (fun _ => rfl) rfl (fun _ => rfl) s _
  · exact filterMap_flatMap_groupEvents_tx (fun _ => rfl) (fun _ => rfl) rfl (fun _ => rfl) s _

end Sys2Proof.Machine

namespace Sys2Proof.Machine

/-! ## What no command reads, and what only SCAN_STEP reads (10_state.md section 2) -/

/-- The state with other output registers, another cursor and another level of `bus_free`. -/
def State.withRegisters (s : State) (g : BitVec 2) (e : Bool) (stage : Option (List Byte)) (p : BitVec 2)
    (level : Bool) : State :=
  { s with rowSel := g, rowOe := e, latched := stage, phase := p, busFree := level }

section
variable (s : State) (g : BitVec 2) (e : Bool) (stage : Option (List Byte)) (p : BitVec 2) (level : Bool)

theorem writePixel_withRegisters (mux : Bool → Byte → Byte → Byte) (x y : Int) (v : Bool) :
    writePixel mux x y v (s.withRegisters g e stage p level) =
      (writePixel mux x y v s).withRegisters g e stage p level := by
  cases h : addresser s.geom x y with
  | none => rw [writePixel_offScreen h, writePixel_offScreen (s := s.withRegisters g e stage p level) h]
  | some q =>
    rw [writePixel_onScreen h, writePixel_onScreen (s := s.withRegisters g e stage p level) h]
    rfl

/-- A command other than SCAN_STEP does the same whatever the registers hold, and leaves them. -/
theorem exec_withRegisters {i : Instr} {t : State} (h : exec i s = .next t) (hi : i ≠ .scanStep) :
    exec i (s.withRegisters g e stage p level) = .next (t.withRegisters g e stage p level) := by
  rcases exec_next_cases h with ⟨rfl, rfl⟩ | ⟨mode, x, y, v, rfl, rfl⟩ | ⟨x, y, rfl, rfl⟩ | ⟨normal, rfl, rfl⟩ |
    ⟨a, rfl, ha, rfl⟩ | ⟨a, d, rfl, ha, rfl⟩ | ⟨hscan, -⟩
  · rfl
  · rw [exec_writePixel, writePixel_withRegisters]
  · rfl
  · rfl
  · exact exec_readByte_inside (s := s.withRegisters g e stage p level) ha
  · exact exec_writeByte_inside (s := s.withRegisters g e stage p level) ha d
  · exact absurd hscan hi

/-- A scan step's bytes, events and cursor come from the geometry, the framebuffer and the cursor alone. -/
theorem exec_scanStep_withOutputs {t : State} (h : exec .scanStep s = .next t) :
    ∃ t', exec .scanStep { s with rowSel := g, rowOe := e, latched := stage } = .next t' ∧
      t'.fb = t.fb ∧ t'.phase = t.phase ∧ t'.responses = t.responses ∧ t'.events = t.events := by
  cases hfree : s.busFree with
  | true =>
    obtain rfl := Host.Outcome.next.inj ((exec_scanStep_free hfree).symm.trans h)
    refine ⟨_, exec_scanStep_free rfl, by simp, by simp, by simp, ?_⟩
    rw [scanFree_events, scanFree_events]
    rfl
  | false =>
    obtain rfl := Host.Outcome.next.inj ((exec_scanStep_busy hfree).symm.trans h)
    exact ⟨_, exec_scanStep_busy rfl, rfl, rfl, rfl, rfl⟩

end

/-- Settles O56: every command but SCAN_STEP runs alike under any registers (`exec_withRegisters`) and leaves those that
stand; a scan step reads none of the output registers. -/
theorem outputRegistersAreReadByNoCommand : Obligations.OutputRegistersAreReadByNoCommand := by
  intro i s t h g e stage
  by_cases hi : i = .scanStep
  · subst hi
    exact ⟨exec_scanStep_withOutputs s g e stage h, fun hne => absurd rfl hne⟩
  · obtain ⟨fb, responses, rfl⟩ := exec_next_eq_of_not_freeScan h fun hscan => hi hscan.1
    exact ⟨⟨_, exec_withRegisters s g e stage s.phase s.busFree h hi, rfl, rfl, rfl, rfl⟩,
      fun _ p level => exec_withRegisters s s.rowSel s.rowOe s.latched p level h hi⟩

/-! ## The bit-addresser's vectors (R68) -/

theorem addresser_eq_none_of_neg (g : Geometry) {x y : Int} (h : x < 0 ∨ y < 0) : addresser g x y = none := by
  rw [addresser_eq_none_iff, ← Bool.not_eq_true, onScreen_iff]
  omega

/-- Settles O24: with the tiling's numbers put in, each vector is computed; a negative coordinate is off the screen. -/
theorem addresserVectors : Obligations.AddresserVectors := by
  rintro ⟨dw, dh, hw, hh, hdt⟩
  refine ⟨?_, ?_, ?_, ?_, addresser_eq_none_of_neg _ (by decide), addresser_eq_none_of_neg _ (by decide),
    addresser_eq_none_of_neg _ (by decide)⟩
  · rintro ⟨rfl, rfl⟩
    exact ⟨rfl, rfl, rfl, rfl, rfl⟩
  · rintro ⟨rfl, rfl⟩
    exact ⟨rfl, rfl, rfl, rfl, rfl, rfl, rfl, rfl⟩
  · rintro ⟨rfl, rfl⟩
    rfl
  · rintro ⟨rfl, rfl⟩
    rfl

end Sys2Proof.Machine
